-- ==== Sys2Proof/Word.lean ====
section
/-! DEFINITION. The word types of the badvm engine (spec/00_scope.md R6, R7). -/

namespace Sys2Proof

/-- A byte of memory or of the instruction stream (R7). -/
abbrev Byte := BitVec 8

/-- An operand-stack cell and a 64-bit immediate: the two's-complement pattern of an `i64` (R6 `XLEN`;
two's complement is general knowledge, 93_implementation_defined.md G1, log 7). -/
abbrev Word := BitVec 64

/-- A display cell, an opaque 32-bit value (R30). -/
abbrev Pixel := BitVec 32

end Sys2Proof
end

