-- ==== Sys2Proof/Syntax.lean ====
section
/-! DEFINITION. The 17 instructions of the badvm ISA (spec/30_encoding.md R80, R90). -/

namespace Sys2Proof

/-- The 17 mnemonics, in the order of the opcode map (R90). -/
inductive Mnemonic where
  | nop | halt | push | pop | add | mul | sub | div | jump
  | loadU8 | storeU8 | swap | dupe | dupeAt | interrupt | call | ret
  deriving DecidableEq, Repr

/-- The mnemonics once each, in the order of R90. -/
def Mnemonic.all : List Mnemonic :=
  [.nop, .halt, .push, .pop, .add, .mul, .sub, .div, .jump,
   .loadU8, .storeU8, .swap, .dupe, .dupeAt, .interrupt, .call, .ret]

/-- An instruction: a mnemonic with an immediate of its format's type (R80, R96). -/
inductive Instr where
  | nop
  | halt
  | push (imm : Word)
  | pop
  | add
  | mul
  | sub
  | div
  | jump
  | loadU8
  | storeU8
  | swap
  | dupe
  | dupeAt (imm : Word)
  | interrupt (code : Byte)
  | call
  | ret
  deriving DecidableEq, Repr

/-- The mnemonic of an instruction. -/
def Instr.mnemonic : Instr → Mnemonic
  | .nop => .nop
  | .halt => .halt
  | .push _ => .push
  | .pop => .pop
  | .add => .add
  | .mul => .mul
  | .sub => .sub
  | .div => .div
  | .jump => .jump
  | .loadU8 => .loadU8
  | .storeU8 => .storeU8
  | .swap => .swap
  | .dupe => .dupe
  | .dupeAt _ => .dupeAt
  | .interrupt _ => .interrupt
  | .call => .call
  | .ret => .ret

end Sys2Proof
end

