-- ==== Sys2Proof/Config.lean ====
section
/-! DEFINITION. The parameters of the engine (spec/00_scope.md R6): what a construction or an implementation fixes
and no step changes (spec/10_state.md R39). -/

namespace Sys2Proof

/-- What an arithmetic result that does not fit in 64 bits does: the two values of `ARITH_OVERFLOW` and of
`DIV_OVERFLOW` (R6). -/
inductive OverflowMode where
  | wrap
  | fault
  deriving DecidableEq, Repr

/-- Which byte selects which mnemonic: the mnemonic at position `k` has opcode byte `k` (R90). -/
abbrev OpcodeMap := List Mnemonic

/-- The parameters of R6 whose value is OPEN or this spec's own decision. -/
structure Config where
  /-- `DISPLAY_WIDTH`, OPEN (D21). -/
  displayWidth : Nat
  /-- `DISPLAY_HEIGHT`, OPEN (D21). -/
  displayHeight : Nat
  /-- `PC_BITS`, the width of the program counter (D3). -/
  pcBits : Nat
  /-- `OPSTACK_MAX`; `none` is unbounded (D14). -/
  opStackMax : Option Nat
  /-- `CALLSTACK_MAX`; `none` is unbounded (D14). -/
  callStackMax : Option Nat
  /-- `ARITH_OVERFLOW` (D6). -/
  arithOverflow : OverflowMode
  /-- `DIV_OVERFLOW` (D7). -/
  divOverflow : OverflowMode
  /-- `OPCODE_MAP` (D1). -/
  opcodeMap : OpcodeMap
  deriving DecidableEq, Repr

/-- The number of display cells, `DISPLAY_WIDTH * DISPLAY_HEIGHT` (R30). -/
def Config.displayCells (c : Config) : Nat := c.displayWidth * c.displayHeight

end Sys2Proof
end

