-- ==== Sys2Proof/WellFormed.lean ====
section
/-! DEFINITION. What must hold of an opcode map, of an instruction under a map, and of a program image. -/

namespace Sys2Proof

/-- An opcode map pairs the opcode bytes 0x00 to 0x10 with the 17 mnemonics one to one (R81, R90): it is a
reordering of the 17 mnemonics. -/
abbrev OpcodeMap.wf (map : OpcodeMap) : Prop := map.Perm Mnemonic.all

/-- An instruction is well formed under a map that gives its mnemonic an opcode byte.  Its immediate needs no
check: every immediate of the format's type is legal (R87). -/
abbrev Instr.wf (map : OpcodeMap) (i : Instr) : Prop := i.mnemonic ∈ map

/-- A program image fits in a memory of `size` bytes (R281: `IMAGE_LEN <= MEM_SIZE`). -/
abbrev imageFits (size : Nat) (image : List Byte) : Prop := image.length ≤ size

end Sys2Proof
end

