-- ==== Sys2Proof/Decode.lean ====
section
/-! DEFINITION. The decoder of instruction bytes and, after it, the encoder (spec/30_encoding.md). -/

namespace Sys2Proof

/-- The opcode map of R90: byte 0x00 is `Nop`, ..., byte 0x10 is `Ret` (the spec's own decision D1, log 4). -/
def defaultOpcodeMap : OpcodeMap :=
  [.nop, .halt, .push, .pop, .add, .mul, .sub, .div, .jump,
   .loadU8, .storeU8, .swap, .dupe, .dupeAt, .interrupt, .call, .ret]

/-- How many immediate bytes follow the opcode byte (R82): none in format `Z`, 1 in `I8`, 8 in `I64`. -/
def Mnemonic.immBytes : Mnemonic → Nat
  | .push => 8
  | .dupeAt => 8
  | .interrupt => 1
  | .nop | .halt | .pop | .add | .mul | .sub | .div | .jump
  | .loadU8 | .storeU8 | .swap | .dupe | .call | .ret => 0

/-- The instruction length `L` of R82 in bytes, a function of the opcode alone. -/
def Mnemonic.length (m : Mnemonic) : Nat := 1 + m.immBytes

/-- The number at `k` little-endian bytes, the byte at the lowest address least significant (R50, R85). -/
def leValue : List Byte → Nat
  | [] => 0
  | b :: bs => b.toNat + 256 * leValue bs

/-- The low `k` bytes of a number, least significant first (R50). -/
def leBytes : Nat → Nat → List Byte
  | 0, _ => []
  | k + 1, n => BitVec.ofNat 8 n :: leBytes k (n / 256)

/-- The opcode decode of R91: total over all 256 byte values, looking at no other byte. -/
def decodeOpcode (map : OpcodeMap) (op : Byte) : Option Mnemonic := map[op.toNat]?

/-- The instruction of a mnemonic and the number in its immediate bytes (R85: the 64-bit immediate is read as
two's complement, the 8-bit one as unsigned). -/
def Mnemonic.withImmediate (m : Mnemonic) (imm : Nat) : Instr :=
  match m with
  | .nop => .nop
  | .halt => .halt
  | .push => .push (BitVec.ofNat 64 imm)
  | .pop => .pop
  | .add => .add
  | .mul => .mul
  | .sub => .sub
  | .div => .div
  | .jump => .jump
  | .loadU8 => .loadU8
  | .storeU8 => .storeU8
  | .swap => .swap
  | .dupe => .dupe
  | .dupeAt => .dupeAt (BitVec.ofNat 64 imm)
  | .interrupt => .interrupt (BitVec.ofNat 8 imm)
  | .call => .call
  | .ret => .ret

/-- Why bytes are no instruction. -/
inductive DecodeError where
  /-- There is no byte to decode. -/
  | noOpcode
  /-- The opcode byte selects no mnemonic (R92). -/
  | invalidOpcode (op : Byte)
  /-- The bytes end before the immediate does (R95). -/
  | noImmediate
  deriving DecidableEq, Repr

/-- Decode the instruction at the front of a byte string and give back the bytes after it (R82 to R91). -/
def decode (map : OpcodeMap) : List Byte → Except DecodeError (Instr × List Byte)
  | [] => .error .noOpcode
  | op :: rest =>
    match decodeOpcode map op with
    | none => .error (.invalidOpcode op)
    | some m =>
      if rest.length < m.immBytes then .error .noImmediate
      else .ok (m.withImmediate (leValue (rest.take m.immBytes)), rest.drop m.immBytes)

/-- The number an instruction's immediate bytes hold (R84, R86); 0 where there are none. -/
def Instr.immediate : Instr → Nat
  | .push imm => imm.toNat
  | .dupeAt imm => imm.toNat
  | .interrupt code => code.toNat
  | .nop | .halt | .pop | .add | .mul | .sub | .div | .jump
  | .loadU8 | .storeU8 | .swap | .dupe | .call | .ret => 0

/-- The opcode byte a map gives a mnemonic (R90). -/
def encodeOpcode (map : OpcodeMap) (m : Mnemonic) : Byte := BitVec.ofNat 8 (map.idxOf m)

/-- The bytes of an instruction (R83, R84, R86). -/
def encode (map : OpcodeMap) (i : Instr) : List Byte :=
  encodeOpcode map i.mnemonic :: leBytes i.mnemonic.immBytes i.immediate

/-- The longest instruction, in bytes (R82). -/
def maxInstrBytes : Nat := 9

/-- The instruction the decoder reads from the bits `w` of a row of `nbits` bits, bit 0 the least significant bit
of the first byte and every bit from `nbits` on 0. -/
def decodeTableWord (nbits w : Nat) : Option Instr :=
  match decode defaultOpcodeMap (leBytes maxInstrBytes (w % 2 ^ nbits)) with
  | .ok (i, _) => some i
  | .error _ => none

end Sys2Proof
end

