-- ==== Sys2Proof/Machine/Params.lean ====
section
/-! DEFINITION. The numeric parameters the source fixes and the default configuration (spec/00_scope.md R6). -/

namespace Sys2Proof.Machine

/-- `MEM_SIZE`: the number of bytes of memory (R6, R26; the reading of decision D2, log 5). -/
def memSize : Nat := 65536

/-- `DISPLAY_BASE`: the first address of the display window (R60). -/
def displayBase : Nat := 0x8000

/-- `DISPLAY_LIMIT`: the first address after the display window (R60). -/
def displayLimit : Nat := 0x9000

/-- The parameters at R6's defaults, for a display of the given size. -/
def configFor (width height : Nat) : Config where
  displayWidth := width
  displayHeight := height
  pcBits := 64
  opStackMax := none
  callStackMax := none
  arithOverflow := .wrap
  divOverflow := .fault
  opcodeMap := defaultOpcodeMap

/-- The configuration of `State.reset`: R6's defaults and a 64 by 64 display.  DESIGN CHOICE (log 2): the spec leaves
the size OPEN; 64 by 64 is what its examples use. -/
def defaultConfig : Config := configFor 64 64

end Sys2Proof.Machine
end

