-- ==== Sys2Proof/Machine/Sparse.lean ====
section
/-! DEFINITION. Memory and display contents as data: the cells that differ from zero, by rising index. -/

namespace Sys2Proof.Machine

/-- Cells of `w` bits by index; an index that is not listed holds 0. -/
abbrev Sparse (w : Nat) := List (Nat × BitVec w)

/-- The one canonical form: indexes strictly rising and below `bound`, and no cell that holds the 0 an unlisted
index reads as. -/
abbrev Sparse.wf {w : Nat} (bound : Nat) (m : Sparse w) : Prop :=
  m.Pairwise (fun c d => c.1 < d.1) ∧ ∀ c ∈ m, c.2 ≠ 0#w ∧ c.1 < bound

/-- The cell at an index. -/
def Sparse.read {w : Nat} : Sparse w → Nat → BitVec w
  | [], _ => 0#w
  | (k, x) :: m, a => if a = k then x else Sparse.read m a

/-- A cell put before the cells that follow it, unless it holds what an unlisted index reads as. -/
def Sparse.put {w : Nat} (a : Nat) (v : BitVec w) (m : Sparse w) : Sparse w :=
  if v = 0#w then m else (a, v) :: m

/-- The cells with the one at index `a` replaced, in canonical form. -/
def Sparse.write {w : Nat} : Sparse w → Nat → BitVec w → Sparse w
  | [], a, v => Sparse.put a v []
  | (k, x) :: m, a, v =>
    if a < k then Sparse.put a v ((k, x) :: m)
    else if a = k then Sparse.put a v m
    else (k, x) :: Sparse.write m a v

end Sys2Proof.Machine
end

