-- ==== Sys2Proof/Machine/State.lean ====
section
/-! DEFINITION. The state of the engine (spec/10_state.md), the reasons a step stops, and the state after reset. -/

namespace Sys2Proof.Machine

/-- The argument an interrupt service found missing (R232 kind 9; decision D26). -/
inductive ArgName where
  | color | index | y | x
  deriving DecidableEq, Repr

/-- The fourteen fault kinds of R232 with their information fields (names by decision D16, log 15). -/
inductive FaultKind where
  /-- Code 1: the opcode byte or an immediate byte lies at or beyond `MEM_SIZE`. -/
  | pcOutOfBounds
  /-- Code 2: the opcode byte selects no instruction. -/
  | invalidInstruction (op : Byte)
  /-- Code 3: a pop, or `Dupe`, finds the operand stack empty. -/
  | stackUnderflow
  /-- Code 4: `DupeAt` with an immediate outside `1 .. len(S)`. -/
  | stackIndexOutOfRange (imm : Word)
  /-- Code 5: a load or store address outside memory. -/
  | memoryOutOfBounds (addr : Word)
  /-- Code 6: `Div` by 0. -/
  | divisionByZero
  /-- Code 7: `Div` of -2^63 by -1, when `DIV_OVERFLOW = fault`. -/
  | divisionOverflow
  /-- Code 8: an interrupt code other than 0x00 and 0x01. -/
  | unknownInterrupt (code : Byte)
  /-- Code 9: an interrupt service finds the operand stack empty. -/
  | interruptArgUnderflow (name : ArgName)
  /-- Code 10: `Ret` with an empty call stack. -/
  | returnWithEmptyCallStack
  /-- Code 11: a display cell index outside the display. -/
  | displayOutOfBounds (index : Int)
  /-- Code 12: a push onto a full operand stack of finite capacity. -/
  | stackOverflow
  /-- Code 13: a call onto a full call stack of finite capacity. -/
  | callStackOverflow
  /-- Code 14: `Add`, `Mul` or `Sub` out of range, when `ARITH_OVERFLOW = fault`. -/
  | arithmeticOverflow
  deriving DecidableEq, Repr

/-- A fault record (R231): its kind and the address of the faulting instruction's opcode byte. -/
structure FaultRecord where
  kind : FaultKind
  addr : Nat
  deriving DecidableEq, Repr

/-- A call-stack frame (R22): the address of the `Call` opcode byte that created it. -/
structure Frame where
  ret : Nat
  deriving DecidableEq, Repr

/-- The memory `M` (R26): `memSize` bytes, an unlisted address reading 0x00 (R40, decision D2, log 5). -/
abbrev Memory := List Host.Cell

/-- Memory in its one canonical form, every address below `memSize`. -/
abbrev Memory.wf (m : Memory) : Prop := Sparse.wf (w := 8) memSize m

/-- The display buffer `Disp` (R30): cells by index, an unlisted cell being 0 (R40). -/
abbrev Display := Sparse 32

/-- The state of the engine: the tuple `(pc, S, CS, M, Disp, paused, fault)` of 10_state.md, and the parameters
that no step changes (R39; why they stand here: log 1). -/
structure State where
  /-- The parameters of R6. -/
  config : Config
  /-- The program counter (R24): an unsigned number, kept below 2^`PC_BITS` by the one operation that writes it
  (`goto`; R6, decision D3, log 6). -/
  pc : Nat
  /-- The operand stack `S`, bottom first (R8, R20). -/
  stack : List Word
  /-- The call stack `CS`, bottom first (R8, R22). -/
  callStack : List Frame
  /-- The memory `M` (R26). -/
  memory : Memory
  /-- The display buffer `Disp` (R30). -/
  display : Display
  /-- The paused flag (R32). -/
  paused : Bool
  /-- The fault latch (R33). -/
  fault : Option FaultRecord
  deriving DecidableEq, Repr

/-- The state after construction with an empty image (R40, R281) under `defaultConfig`: `pc` 0, both stacks empty,
every memory byte and display cell 0, not paused, no fault (pc, call stack, paused and fault by decision D22, log 8). -/
def State.reset : State where
  config := defaultConfig
  pc := 0
  stack := []
  callStack := []
  memory := []
  display := []
  paused := false
  fault := none

/-- Why a step answers no next state because the machine has stopped with a fault. -/
inductive Fault where
  /-- Raised by `step` alone, when the latch already holds a record: the step request is refused and nothing changes
  (R110, R246).  Safe: the model stops where the spec has no transition.  The step that RAISES a fault is not this:
  it answers a next state whose latch holds the record (R240, log 3). -/
  | latched (r : FaultRecord)
  deriving DecidableEq, Repr

/-- Why a step request is refused. -/
inductive Refusal where
  /-- Raised by an arm of `exec` whose instruction has no meaning yet; no arm does.  Safe. -/
  | notModelled (mnemonic : String)
  /-- Raised by `step` alone, when the engine is paused and not faulted: the step request is refused and nothing
  changes (R110, R120).  Safe: the model stops where the spec has no transition. -/
  | paused
  deriving DecidableEq, Repr

/-- What a step or a meaning answers. -/
abbrev Result := Host.Outcome State Fault Refusal

/-! The updates of one field, so that later definitions and proofs name what they change. -/

def State.setPc (s : State) (v : Nat) : State := { s with pc := v }
def State.setStack (s : State) (v : List Word) : State := { s with stack := v }
def State.setCallStack (s : State) (v : List Frame) : State := { s with callStack := v }
def State.setMemory (s : State) (v : Memory) : State := { s with memory := v }
def State.setDisplay (s : State) (v : Display) : State := { s with display := v }
def State.setPaused (s : State) (v : Bool) : State := { s with paused := v }
def State.setFault (s : State) (v : Option FaultRecord) : State := { s with fault := v }

end Sys2Proof.Machine
end

