-- ==== Sys2Proof/Machine/Operands.lean ====
section
/-! DEFINITION. The functions on values that the instruction rules use (spec/00_scope.md R7) and the places an operand
names: a stack index, a store's target. -/

namespace Sys2Proof.Machine

/-- `wrap64` (R7): the `i64` congruent to an integer modulo 2^64, as its pattern. -/
def wrap64 (n : Int) : Word := BitVec.ofInt 64 n

/-- `low8` (R7): the low 8 bits of the pattern. -/
def low8 (v : Word) : Byte := v.setWidth 8

/-- `low32` (R7): the low 32 bits of the pattern. -/
def low32 (v : Word) : Pixel := v.setWidth 32

/-- `zext_64` of a byte (R7, R200). -/
def zext64 (b : Byte) : Word := b.setWidth 64

/-- `tdiv` (R7): the quotient rounded toward zero. -/
def tdiv (n d : Int) : Int := Int.tdiv n d

/-- The display value of a stored byte (R62): the byte in all four bytes of the cell. -/
def broadcast (b : Byte) : Pixel := b.setWidth 32 * 0x01010101#32

/-- The index `DupeAt` reads, counted from the bottom of a stack of `n` cells (R148), exact over the integers. -/
def dupeIndex (n : Nat) (imm : Word) : Int := (n : Int) - imm.toInt

/-- The landing address of `Jump` (R180): the destination, a negative one clamped to 0. -/
def jumpTarget (dest : Word) : Nat := (max dest.toInt 0).toNat

/-- The landing address of `Call` (R184): the 64-bit pattern of the destination read as a `u64`, no clamp. -/
def callTarget (dest : Word) : Nat := dest.toNat

/-- The value a program counter of `PC_BITS` bits takes from a number (R24): the number itself under the default of 64
bits for every target of a transfer, and truncated to a narrower counter (decision D3, log 6). -/
def Config.pcValue (c : Config) (n : Nat) : Nat := n % 2 ^ c.pcBits

/-- The display cell of service 0x01 (R214), exact over the integers. -/
def pixelIndex (width : Nat) (x y : Word) : Int := y.toInt * width + x.toInt

/-- Where a store goes (R62). -/
inductive StoreTarget where
  /-- Not an address of memory. -/
  | outside
  /-- A display cell, through the window. -/
  | cell (index : Nat)
  /-- A memory byte. -/
  | byte (addr : Nat)
  deriving DecidableEq, Repr

/-- Where the memory access controller sends a store to an address (R60 to R62). -/
def storeTarget (addr : Word) : StoreTarget :=
  if addr.toInt < 0 ∨ (memSize : Int) ≤ addr.toInt then .outside
  else if (displayBase : Int) ≤ addr.toInt ∧ addr.toInt < (displayLimit : Int) then
    .cell (addr.toInt.toNat - displayBase)
  else .byte addr.toInt.toNat

end Sys2Proof.Machine
end

