-- ==== Sys2Proof/Machine/Flags.lean ====
section
/-! DEFINITION. The engine has no status flags (spec/10_state.md R35).  What its rules test instead: whether a step
may happen, whether an exact result fits, whether an index exists. -/

namespace Sys2Proof.Machine

/-- `step_ready` (R110): no fault is latched and the engine is not paused. -/
def State.stepReady (s : State) : Bool := s.fault.isNone && !s.paused

/-- An exact result is an `i64` (R7, R160). -/
def fitsI64 (n : Int) : Bool := -(2 ^ 63) ≤ n && n < 2 ^ 63

/-- The one pair whose quotient is not an `i64` (R165): dividend -2^63, divisor -1. -/
def divOverflows (dividend divisor : Word) : Bool := dividend.toInt == -(2 ^ 63) && divisor.toInt == -1

/-- An integer is a display cell index (R9 `DispWrite`). -/
def Config.hasCell (c : Config) (index : Int) : Bool := 0 ≤ index && index < (c.displayCells : Int)

/-- The code of a fault kind (R232; numbers by decision D16, log 15). -/
def FaultKind.code : FaultKind → Nat
  | .pcOutOfBounds => 1
  | .invalidInstruction _ => 2
  | .stackUnderflow => 3
  | .stackIndexOutOfRange _ => 4
  | .memoryOutOfBounds _ => 5
  | .divisionByZero => 6
  | .divisionOverflow => 7
  | .unknownInterrupt _ => 8
  | .interruptArgUnderflow _ => 9
  | .returnWithEmptyCallStack => 10
  | .displayOutOfBounds _ => 11
  | .stackOverflow => 12
  | .callStackOverflow => 13
  | .arithmeticOverflow => 14

/-- The name of a missing interrupt argument (R232 kind 9). -/
def ArgName.text : ArgName → String
  | .color => "color"
  | .index => "index"
  | .y => "y"
  | .x => "x"

end Sys2Proof.Machine
end

