-- ==== Sys2Proof/Machine/Ops.lean ====
section
/-! DEFINITION. The micro-operations of spec/00_scope.md R9.  Each takes the state, does its part and passes the new
state on to what follows it; one that raises a fault ends the step there, so what was done before it stays done and
what follows does not happen (R9, R243). -/

namespace Sys2Proof.Machine

/-- Fault entry (R240): the latch takes the kind and the address of the faulting instruction.  `pc` still holds that
address, since no rule writes it before its last micro-operation, and it stays; `paused` is not set. -/
def State.takeFault (s : State) (k : FaultKind) : State := s.setFault (some { kind := k, addr := s.pc })

/-- `raise K` (R9): end the step with a fault.  There is no return from it (R246). -/
def raise (k : FaultKind) (s : State) : Result := .next (s.takeFault k)

/-- A pop that raises `k` on an empty operand stack. -/
def popOr (k : FaultKind) (s : State) (next : Word → State → Result) : Result :=
  match s.stack.getLast? with
  | none => raise k s
  | some v => next v (s.setStack s.stack.dropLast)

/-- `pop()` (R9). -/
def pop (s : State) (next : Word → State → Result) : Result := popOr .stackUnderflow s next

/-- `pop_arg(name)` (R9). -/
def popArg (name : ArgName) (s : State) (next : Word → State → Result) : Result :=
  popOr (.interruptArgUnderflow name) s next

/-- The read of the top cell that `Dupe` makes without popping (R146). -/
def readTop (s : State) (next : Word → Result) : Result :=
  match s.stack.getLast? with
  | none => raise .stackUnderflow s
  | some v => next v

/-- The read of the cell at a computed index that `DupeAt` makes (R148). -/
def readAt (imm : Word) (s : State) (next : Word → Result) : Result :=
  if dupeIndex s.stack.length imm < 0 then raise (.stackIndexOutOfRange imm) s
  else
    match s.stack[(dupeIndex s.stack.length imm).toNat]? with
    | none => raise (.stackIndexOutOfRange imm) s
    | some v => next v

/-- `push(v)` (R9). -/
def push (v : Word) (s : State) (next : State → Result) : Result :=
  if s.config.opStackMax = some s.stack.length then raise .stackOverflow s
  else next (s.setStack (s.stack ++ [v]))

/-- `cs_push(f)` (R9). -/
def csPush (f : Frame) (s : State) (next : State → Result) : Result :=
  if s.config.callStackMax = some s.callStack.length then raise .callStackOverflow s
  else next (s.setCallStack (s.callStack ++ [f]))

/-- `cs_pop()` (R9). -/
def csPop (s : State) (next : Frame → State → Result) : Result :=
  match s.callStack.getLast? with
  | none => raise .returnWithEmptyCallStack s
  | some f => next f (s.setCallStack s.callStack.dropLast)

/-- `MemRead(addr, 1)` (R64); the window is read like any other memory (R63). -/
def memRead (addr : Word) (s : State) (next : Byte → Result) : Result :=
  if addr.toInt < 0 ∨ (memSize : Int) ≤ addr.toInt then raise (.memoryOutOfBounds addr) s
  else next (Sparse.read s.memory addr.toInt.toNat)

/-- `DispWrite(i, c)` (R9). -/
def dispWrite (index : Int) (c : Pixel) (s : State) (next : State → Result) : Result :=
  if Config.hasCell s.config index then next (s.setDisplay (Sparse.write s.display index.toNat c))
  else raise (.displayOutOfBounds index) s

/-- `MemWrite(addr, 1, b)` (R62): a store in the window goes to the display and leaves memory as it was. -/
def memWrite (addr : Word) (b : Byte) (s : State) (next : State → Result) : Result :=
  match storeTarget addr with
  | .outside => raise (.memoryOutOfBounds addr) s
  | .cell index => dispWrite index (broadcast b) s next
  | .byte a => next (s.setMemory (Sparse.write s.memory a b))

/-- The result of `Add`, `Mul` and `Sub` from its exact value (R160): wrapped, or a fault under
`ARITH_OVERFLOW = fault`. -/
def arith (exact : Int) (s : State) (next : Word → Result) : Result :=
  if s.config.arithOverflow = .fault ∧ fitsI64 exact = false then raise .arithmeticOverflow s
  else next (wrap64 exact)

/-- The result of `Div` (R165): the zero check first, then the one quotient that does not fit. -/
def divide (dividend divisor : Word) (s : State) (next : Word → Result) : Result :=
  if divisor = 0#64 then raise .divisionByZero s
  else if s.config.divOverflow = .fault ∧ divOverflows dividend divisor = true then raise .divisionOverflow s
  else next (wrap64 (tdiv dividend.toInt divisor.toInt))

/-- `pc <- t` as the last micro-operation of a step (R9, R116): the only write of the program counter. -/
def goto (t : Nat) (s : State) : Result := .next (s.setPc (Config.pcValue s.config t))

/-- Phase 6 of a step (R116) for every instruction but `Jump`, `Call` and `Ret`: past the instruction's bytes. -/
def advance (m : Mnemonic) (s : State) : Result := goto (s.pc + m.length) s

end Sys2Proof.Machine
end

