-- ==== Sys2Proof/Machine/Arithmetic.lean ====
section
/-! DEFINITION. The arithmetic instructions (spec/43_arithmetic.md).  `b` is the value popped first, the old top of the
stack; `a` the second (R10). -/

namespace Sys2Proof.Machine

/-- `Add` (R161). -/
def execAdd (s : State) : Result :=
  pop s fun b s => pop s fun a s => arith (a.toInt + b.toInt) s fun r => push r s (advance .add)

/-- `Mul` (R162). -/
def execMul (s : State) : Result :=
  pop s fun b s => pop s fun a s => arith (a.toInt * b.toInt) s fun r => push r s (advance .mul)

/-- `Sub` (R163): the first popped is the minuend (R164, conflict C2, log 16). -/
def execSub (s : State) : Result :=
  pop s fun b s => pop s fun a s => arith (b.toInt - a.toInt) s fun r => push r s (advance .sub)

/-- `Div` (R165): the first popped is the dividend (R164, conflict C3, log 16). -/
def execDiv (s : State) : Result :=
  pop s fun b s => pop s fun a s => divide b a s fun r => push r s (advance .div)

end Sys2Proof.Machine
end

