-- ==== Sys2Proof/Machine/Control.lean ====
section
/-! DEFINITION. The control-transfer instructions (spec/44_control_transfer.md). -/

namespace Sys2Proof.Machine

/-- `Jump` (R180). -/
def execJump (s : State) : Result := pop s fun dest s => goto (jumpTarget dest) s

/-- `Call` (R184): the frame holds the address of this `Call`'s opcode byte. -/
def execCall (s : State) : Result :=
  pop s fun dest s => csPush { ret := s.pc } s (goto (callTarget dest))

/-- `Ret` (R187): to the byte after the one-byte `Call` (decision D5, log 18). -/
def execRet (s : State) : Result := csPop s fun f s => goto (f.ret + 1) s

end Sys2Proof.Machine
end

