-- ==== Sys2Proof/Machine/Interrupt.lean ====
section
/-! DEFINITION. The `Interrupt` instruction and its two services (spec/46_interrupt.md). -/

namespace Sys2Proof.Machine

/-- Service 0x00 (R212): write pixel by linear index. -/
def servicePixelLinear (s : State) (next : State → Result) : Result :=
  popArg .color s fun color s => popArg .index s fun index s => dispWrite index.toInt (low32 color) s next

/-- Service 0x01 (R214): write pixel by coordinates. -/
def servicePixelXY (s : State) (next : State → Result) : Result :=
  popArg .color s fun color s => popArg .y s fun y s => popArg .x s fun x s =>
    dispWrite (pixelIndex s.config.displayWidth x y) (low32 color) s next

/-- `Interrupt <imm8>` (R210): the code is looked up before any argument is popped. -/
def execInterrupt (code : Byte) (s : State) : Result :=
  if code = 0x00#8 then servicePixelLinear s (advance .interrupt)
  else if code = 0x01#8 then servicePixelXY s (advance .interrupt)
  else raise (.unknownInterrupt code) s

end Sys2Proof.Machine
end

