-- ==== Sys2Proof/Machine/LoadStore.lean ====
section
/-! DEFINITION. The load and store instructions (spec/45_load_store.md). -/

namespace Sys2Proof.Machine

/-- `LoadU8` (R200). -/
def execLoadU8 (s : State) : Result :=
  pop s fun addr s => memRead addr s fun byte => push (zext64 byte) s (advance .loadU8)

/-- `StoreU8` (R202): the address is on top of the stack, the value under it. -/
def execStoreU8 (s : State) : Result :=
  pop s fun addr s => pop s fun value s => memWrite addr (low8 value) s (advance .storeU8)

end Sys2Proof.Machine
end

