-- ==== Sys2Proof/Machine/Stack.lean ====
section
/-! DEFINITION. The stack instructions (spec/42_stack.md).  `b` is the value popped first, `a` the second (R10). -/

namespace Sys2Proof.Machine

/-- `Push <imm64>` (R140). -/
def execPush (imm : Word) (s : State) : Result := push imm s (advance .push)

/-- `Pop` (R142). -/
def execPop (s : State) : Result := pop s fun _ s => advance .pop s

/-- `Swap` (R144). -/
def execSwap (s : State) : Result :=
  pop s fun b s => pop s fun a s => push b s fun s => push a s (advance .swap)

/-- `Dupe` (R146). -/
def execDupe (s : State) : Result := readTop s fun t => push t s (advance .dupe)

/-- `DupeAt <imm64>` (R148). -/
def execDupeAt (imm : Word) (s : State) : Result := readAt imm s fun v => push v s (advance .dupeAt)

end Sys2Proof.Machine
end

