-- ==== Sys2Proof/Machine/System.lean ====
section
/-! DEFINITION. The system instructions (spec/41_system.md). -/

namespace Sys2Proof.Machine

/-- `Nop` (R130). -/
def execNop (s : State) : Result := advance .nop s

/-- `Halt` (R132): `pc` does advance. -/
def execHalt (s : State) : Result := advance .halt (s.setPaused true)

end Sys2Proof.Machine
end

