-- ==== Sys2Proof/Machine/Dispatch.lean ====
section
/-! DEFINITION. The meaning of every instruction, one arm each (spec/40_step_cycle.md R115). -/

namespace Sys2Proof.Machine

def exec (i : Instr) (s : State) : Host.Outcome State Fault Refusal :=
  match i with
  | .nop => Sys2Proof.Machine.execNop s
  | .halt => Sys2Proof.Machine.execHalt s
  | .push imm => Sys2Proof.Machine.execPush imm s
  | .pop => Sys2Proof.Machine.execPop s
  | .add => Sys2Proof.Machine.execAdd s
  | .mul => Sys2Proof.Machine.execMul s
  | .sub => Sys2Proof.Machine.execSub s
  | .div => Sys2Proof.Machine.execDiv s
  | .jump => Sys2Proof.Machine.execJump s
  | .loadU8 => Sys2Proof.Machine.execLoadU8 s
  | .storeU8 => Sys2Proof.Machine.execStoreU8 s
  | .swap => Sys2Proof.Machine.execSwap s
  | .dupe => Sys2Proof.Machine.execDupe s
  | .dupeAt imm => Sys2Proof.Machine.execDupeAt imm s
  | .interrupt code => Sys2Proof.Machine.execInterrupt code s
  | .call => Sys2Proof.Machine.execCall s
  | .ret => Sys2Proof.Machine.execRet s

end Sys2Proof.Machine
end

