-- ==== Sys2Proof/Machine/Fetch.lean ====
section
/-! DEFINITION. Phases 1 to 4 of a step: the bytes at the program counter and the instruction they decode to
(spec/40_step_cycle.md R111 to R114). -/

namespace Sys2Proof.Machine

/-- `n` bytes of memory from an address on. -/
def readBytes (m : Memory) (a : Nat) : Nat → List Byte
  | 0 => []
  | n + 1 => Sparse.read m a :: readBytes m (a + 1) n

/-- The bytes a fetch may read: from `pc` on, as many as the longest instruction has and never one at or beyond
`MEM_SIZE` (R111, R114). -/
def State.fetchBytes (s : State) : List Byte :=
  readBytes s.memory s.pc (min maxInstrBytes (memSize - s.pc))

/-- The fault of each decode error: no opcode byte (R111), an invalid one (R113), an immediate that runs past the end
of memory (R114, decision D10). -/
def fetchFault : DecodeError → FaultKind
  | .noOpcode => .pcOutOfBounds
  | .invalidOpcode op => .invalidInstruction op
  | .noImmediate => .pcOutOfBounds

/-- The instruction at the program counter, or the fault of fetching it. -/
def fetch (s : State) : Except FaultKind Instr :=
  match decode s.config.opcodeMap s.fetchBytes with
  | .ok (i, _) => .ok i
  | .error e => .error (fetchFault e)

/-- The answer to a step request that finds the engine not ready (R110): none of the step's phases happens. -/
def notReady (s : State) : Result :=
  match s.fault with
  | some r => .fault (.latched r)
  | none => .refused .paused

/-- Bytes written to memory from an address on, those at or beyond `MEM_SIZE` left out. -/
def writeBytes (m : Memory) (a : Nat) : List Byte → Memory
  | [] => m
  | b :: bs => writeBytes (if a < memSize then Sparse.write m a b else m) (a + 1) bs

end Sys2Proof.Machine
end

