-- ==== Sys2Proof/Machine/Step.lean ====
section
/-! DEFINITION. One step of the engine (spec/40_step_cycle.md R110 to R118). -/

namespace Sys2Proof.Machine

/-- One step request.  A ready engine answers a next state: of the instruction at `pc`, or with a fault latched (R119);
`Port.serve` gives the `Ok` or `Fault(record)` the host sees (R117).  An engine that is not ready has no transition
(R110). -/
def step (s : State) : Host.Outcome State Fault Refusal :=
  if s.stepReady then
    match fetch s with
    | .ok i => exec i s
    | .error k => raise k s
  else notReady s

/-- `s` with the instruction whose bits are `w` (bit 0 the least significant bit of the first byte, every bit from
`nbits` on 0) at the program counter, where `step` fetches.  It stands for the load of a program image by
construction (log 10). -/
def State.withFetchWord (s : State) (nbits w : Nat) : State :=
  s.setMemory (writeBytes s.memory s.pc (leBytes maxInstrBytes (w % 2 ^ nbits)))

end Sys2Proof.Machine
end

