-- ==== Sys2Proof/Machine/Port.lean ====
section
/-! DEFINITION. The engine's interface to its host: construction, step and stop requests, and the reads between steps
(spec/70_reset_and_hazards.md R281, R286; spec/40_step_cycle.md R117, R120). -/

namespace Sys2Proof.Machine

/-- `construct(IMAGE, W, H)` (R281), with the parameters, `W` and `H` among them, in `c`; `none` where the image does
not fit and construction is refused (decision D2). -/
def construct (c : Config) (image : List Byte) : Option State :=
  if image.length ≤ memSize then
    some { State.reset with config := c, memory := writeBytes [] 0 image }
  else none

/-- The stop request (R120). -/
def State.stop (s : State) : State := s.setPaused true

/-- The transactions of R286 that can change the state. -/
inductive Request where
  | construct (image : List Byte) (width height : Nat)
  | step
  | stop
  /-- A stop and a step request at the same moment (R245). -/
  | stopWithStep
  deriving DecidableEq, Repr

/-- What the host is told. -/
inductive Answer where
  | ok
  | fault (r : FaultRecord)
  | refused
  deriving DecidableEq, Repr

/-- A step request as the host sees it (R117): `Ok`, or `Fault` with the record that was latched; refused with no
change where the engine is not ready (R110). -/
def serveStep (s : State) : Answer × State :=
  match step s with
  | .next t =>
    match t.fault with
    | none => (.ok, t)
    | some r => (.fault r, t)
  | .fault _ => (.refused, s)
  | .refused _ => (.refused, s)

/-- One transaction: the answer and the state after it.  A new construction keeps the parameters other than the
display's size (log 26). -/
def serve (r : Request) (s : State) : Answer × State :=
  match r with
  | .construct image w h =>
    match Sys2Proof.Machine.construct { s.config with displayWidth := w, displayHeight := h } image with
    | some t => (.ok, t)
    | none => (.refused, s)
  | .step => serveStep s
  | .stop => (.ok, s.stop)
  | .stopWithStep => serveStep s.stop

/-- The debug read of a memory byte (R262): defined for the addresses of memory. -/
def State.debugByte (s : State) (a : Nat) : Option Byte :=
  if a < memSize then some (Sparse.read s.memory a) else none

/-- The debug read of the byte at an address as the disassembly view needs it (R101, R262): the mnemonic, or none where
the byte is no opcode. -/
def State.debugMnemonic (s : State) (a : Nat) : Option Mnemonic :=
  (s.debugByte a).bind (decodeOpcode s.config.opcodeMap)

/-- The display snapshot (R71, R286): every cell, by index. -/
def State.snapshot (s : State) : List Pixel :=
  (List.range s.config.displayCells).map (Sparse.read s.display)

end Sys2Proof.Machine
end

