-- ==== Sys2Proof/Safety.lean ====
section
/-! DEFINITION. What holds of every reachable state, and how a run has ended (spec/10_state.md R41,
spec/40_step_cycle.md R121). -/

namespace Sys2Proof.Machine

/-- A length within a capacity; `none` is unbounded (R6). -/
def withinCapacity : Option Nat → Nat → Prop
  | none, _ => True
  | some n, len => len ≤ n

/-- The invariants of R41, with the capacities of R20 and R22 and the width of R24. -/
structure State.Inv (s : State) : Prop where
  /-- Memory is in its canonical form, within `memSize` bytes. -/
  memory : Memory.wf s.memory
  /-- The display is in its canonical form, within its `W * H` cells. -/
  display : Sparse.wf s.config.displayCells s.display
  /-- Every frame's return location is an address of memory. -/
  frames : ∀ f ∈ s.callStack, f.ret < memSize
  /-- The program counter is within its width (R24). -/
  pcFits : s.pc < 2 ^ s.config.pcBits
  /-- A latched fault names the address at which `pc` stands. -/
  faultAddr : ∀ r, s.fault = some r → s.pc = r.addr
  /-- The operand stack is within its capacity. -/
  stackFits : withinCapacity s.config.opStackMax s.stack.length
  /-- The call stack is within its capacity. -/
  callStackFits : withinCapacity s.config.callStackMax s.callStack.length

/-- The run has ended (R121). -/
def State.ended (s : State) : Prop := s.stepReady = false

/-- The run has ended by `Halt` or by the host's stop, without a fault (R121 (1) and (2)). -/
def State.endedNormally (s : State) : Prop := s.paused = true ∧ s.fault = none

/-- The run has ended with a fault (R121 (3)): never a successful end. -/
def State.endedFaulted (s : State) : Prop := s.fault ≠ none

end Sys2Proof.Machine
end

