-- ==== Sys2Proof/Certificates/Slice0/Obligations.lean ====
section
/-! DEFINITION. The statements for the provers.  Each docstring names the rules of the spec it formalises; where a
clause rests on a decision the spec marks as its own, or on a choice of this model, it says so.  A statement that gives
the next `pc` gives it modulo 2^`PC_BITS` (R6, the spec's decision D3, log 6), so that it holds for every width;
`HowPcChanges` says where that is the number itself. -/

open Sys2Proof Sys2Proof.Machine

/-! ## Encoding -/

/-- The vectors T1 to T6, every word of them: the bytes of R85 and of the table of R90 (whose pairing of bytes and
mnemonics is the spec's own decision D1) decode to the instructions they stand for, and the bytes 0x11 to 0xFF to none. -/
def Obligations.DecodeReadsTheSpecsWords : Prop :=
  decode defaultOpcodeMap [0x02#8, 0x05#8, 0#8, 0#8, 0#8, 0#8, 0#8, 0#8, 0#8] = .ok (.push 5#64, []) ∧
  decode defaultOpcodeMap [0x02#8, 0xFF#8, 0xFF#8, 0xFF#8, 0xFF#8, 0xFF#8, 0xFF#8, 0xFF#8, 0xFF#8] =
    .ok (.push (BitVec.ofInt 64 (-1)), []) ∧
  decode defaultOpcodeMap [0x02#8, 0#8, 0#8, 0#8, 0#8, 0#8, 0#8, 0#8, 0x80#8] =
    .ok (.push (BitVec.ofInt 64 (-(2 ^ 63))), []) ∧
  decode defaultOpcodeMap [0x02#8, 0xFF#8, 0xFF#8, 0xFF#8, 0xFF#8, 0xFF#8, 0xFF#8, 0xFF#8, 0x7F#8] =
    .ok (.push (BitVec.ofInt 64 (2 ^ 63 - 1)), []) ∧
  decode defaultOpcodeMap [0x02#8, 0x08#8, 0x07#8, 0x06#8, 0x05#8, 0x04#8, 0x03#8, 0x02#8, 0x01#8] =
    .ok (.push 0x0102030405060708#64, []) ∧
  decode defaultOpcodeMap [0x0D#8, 0x03#8, 0#8, 0#8, 0#8, 0#8, 0#8, 0#8, 0#8] = .ok (.dupeAt 3#64, []) ∧
  decode defaultOpcodeMap [0x0D#8, 0xFF#8, 0xFF#8, 0xFF#8, 0xFF#8, 0xFF#8, 0xFF#8, 0xFF#8, 0xFF#8] =
    .ok (.dupeAt (BitVec.ofInt 64 (-1)), []) ∧
  decode defaultOpcodeMap [0x0E#8, 0x01#8] = .ok (.interrupt 1#8, []) ∧
  decode defaultOpcodeMap [0x0E#8, 0xFF#8] = .ok (.interrupt 255#8, []) ∧
  decode defaultOpcodeMap [0x00#8] = .ok (.nop, []) ∧ decode defaultOpcodeMap [0x01#8] = .ok (.halt, []) ∧
  decode defaultOpcodeMap [0x03#8] = .ok (.pop, []) ∧ decode defaultOpcodeMap [0x04#8] = .ok (.add, []) ∧
  decode defaultOpcodeMap [0x05#8] = .ok (.mul, []) ∧ decode defaultOpcodeMap [0x06#8] = .ok (.sub, []) ∧
  decode defaultOpcodeMap [0x07#8] = .ok (.div, []) ∧ decode defaultOpcodeMap [0x08#8] = .ok (.jump, []) ∧
  decode defaultOpcodeMap [0x09#8] = .ok (.loadU8, []) ∧ decode defaultOpcodeMap [0x0A#8] = .ok (.storeU8, []) ∧
  decode defaultOpcodeMap [0x0B#8] = .ok (.swap, []) ∧ decode defaultOpcodeMap [0x0C#8] = .ok (.dupe, []) ∧
  decode defaultOpcodeMap [0x0F#8] = .ok (.call, []) ∧ decode defaultOpcodeMap [0x10#8] = .ok (.ret, []) ∧
  ∀ op : Byte, 0x11 ≤ op.toNat → decode defaultOpcodeMap [op] = .error (.invalidOpcode op)

/-- R96, the round trip: a byte string of an instruction's length whose first byte is a valid opcode decodes, and
encodes again to itself; every instruction decodes from its encoding, whatever follows it; two different instructions
have different encodings.  For every one-to-one opcode map, the default one among them. -/
def Obligations.EncodingRoundTrip : Prop :=
  ∀ map : OpcodeMap, map.wf →
    (∀ (op : Byte) (m : Mnemonic) (imm : List Byte), decodeOpcode map op = some m → 1 + imm.length = m.length →
      ∃ i : Instr, i.mnemonic = m ∧ decode map (op :: imm) = .ok (i, []) ∧ encode map i = op :: imm) ∧
    (∀ (i : Instr) (rest : List Byte), decode map (encode map i ++ rest) = .ok (i, rest)) ∧
    (∀ i j : Instr, encode map i = encode map j → i = j)

/-- R91: the opcode decode gives one of the 17 mnemonics for the bytes 0x00 to 0x10, a different one for each and every
one for some, and no mnemonic for 0x11 to 0xFF; and whether an instruction is rejected as an invalid opcode depends on
no byte but the first. -/
def Obligations.OpcodeDecodeIsTotal : Prop :=
  ∀ map : OpcodeMap, map.wf →
    (∀ op : Byte, op.toNat ≤ 0x10 →
      ∃ m, decodeOpcode map op = some m ∧ ∀ op' : Byte, decodeOpcode map op' = some m → op' = op) ∧
    (∀ m : Mnemonic, ∃ op : Byte, op.toNat ≤ 0x10 ∧ decodeOpcode map op = some m) ∧
    (∀ op : Byte, 0x11 ≤ op.toNat → decodeOpcode map op = none) ∧
    (∀ (op : Byte) (rest : List Byte), decode map (op :: rest) = .error (.invalidOpcode op) ↔ 0x11 ≤ op.toNat)

/-- R82: the length is a function of the opcode byte alone: 9 for `Push` and `DupeAt`, 2 for `Interrupt`, 1 for the
other 14; and a decoded instruction takes exactly that many bytes, whatever its immediate. -/
def Obligations.LengthIsAFunctionOfTheOpcode : Prop :=
  (∀ m : Mnemonic, m.length =
    if m = .push ∨ m = .dupeAt then 9 else if m = .interrupt then 2 else 1) ∧
  (∀ (map : OpcodeMap) (op : Byte) (imm rest : List Byte) (i : Instr),
    decode map (op :: imm) = .ok (i, rest) →
      decodeOpcode map op = some i.mnemonic ∧ 1 + imm.length = i.mnemonic.length + rest.length)

/-- R85, R87: the 64-bit immediate is the little-endian value of its eight bytes, read as two's complement (general
knowledge, the spec's G1), and the 8-bit immediate is its byte, unsigned; no value of either makes an instruction
undecodable. -/
def Obligations.ImmediatesAreLittleEndian : Prop :=
  ∀ (map : OpcodeMap) (op : Byte) (rest : List Byte),
    (∀ b0 b1 b2 b3 b4 b5 b6 b7 : Byte,
      ∃ imm : Word,
        imm.toNat = b0.toNat + 2 ^ 8 * b1.toNat + 2 ^ 16 * b2.toNat + 2 ^ 24 * b3.toNat + 2 ^ 32 * b4.toNat +
          2 ^ 40 * b5.toNat + 2 ^ 48 * b6.toNat + 2 ^ 56 * b7.toNat ∧
        imm.toInt = (if b7.toNat < 0x80 then (imm.toNat : Int) else (imm.toNat : Int) - 2 ^ 64) ∧
        (decodeOpcode map op = some .push →
          decode map (op :: b0 :: b1 :: b2 :: b3 :: b4 :: b5 :: b6 :: b7 :: rest) = .ok (.push imm, rest)) ∧
        (decodeOpcode map op = some .dupeAt →
          decode map (op :: b0 :: b1 :: b2 :: b3 :: b4 :: b5 :: b6 :: b7 :: rest) = .ok (.dupeAt imm, rest))) ∧
    (∀ code : Byte, decodeOpcode map op = some .interrupt →
      decode map (op :: code :: rest) = .ok (.interrupt code, rest))

/-! ## The step -/

/-- R112, R113, R115: a ready engine whose bytes at `pc` decode to an instruction does exactly what that instruction
does, and those bytes are the bytes of memory from `pc` on, at most nine and none at or beyond address 65,536. -/
def Obligations.StepRunsTheDecodedInstruction : Prop :=
  ∀ (s : State) (i : Instr) (rest : List Byte), s.stepReady = true →
    decode s.config.opcodeMap s.fetchBytes = .ok (i, rest) →
      step s = exec i s ∧ s.fetchBytes.length = min 9 (65536 - s.pc) ∧
        ∀ k, k < s.fetchBytes.length → s.fetchBytes[k]? = some (Sparse.read s.memory (s.pc + k))

/-- R111, R113, R114, R95: the three faults of fetching, in their order, each leaving everything but the latch as it
was.  What the latch holds is by the spec's decisions D8 and D15, the kind of the third by D10. -/
def Obligations.FetchFaults : Prop :=
  ∀ s : State, s.stepReady = true →
    (65536 ≤ s.pc → step s = .next { s with fault := some ⟨.pcOutOfBounds, s.pc⟩ }) ∧
    (s.pc < 65536 → decodeOpcode s.config.opcodeMap (Sparse.read s.memory s.pc) = none →
      step s = .next { s with fault := some ⟨.invalidInstruction (Sparse.read s.memory s.pc), s.pc⟩ }) ∧
    (∀ m, s.pc < 65536 → decodeOpcode s.config.opcodeMap (Sparse.read s.memory s.pc) = some m →
      65536 < s.pc + m.length → step s = .next { s with fault := some ⟨.pcOutOfBounds, s.pc⟩ })

/-- R119: from a ready state (its operand stack within its capacity, as in every reachable state) exactly one next
state follows, and the step leaves the parameters as they are (R39); R240,
R243: if it faults, then `pc`, memory, the display, the call stack and the paused flag are as before, the record names
`pc`, and of the operand stack only top cells may be gone (the spec's decisions D8, D9, D15). -/
def Obligations.ReadyStepCompletesOrFaults : Prop :=
  ∀ s : State, s.stepReady = true → withinCapacity s.config.opStackMax s.stack.length →
    ∃ t, step s = .next t ∧ t.config = s.config ∧
      (t.fault = none ∨
        ∃ k, t.fault = some ⟨k, s.pc⟩ ∧ t.pc = s.pc ∧ t.memory = s.memory ∧ t.display = s.display ∧
          t.callStack = s.callStack ∧ t.paused = s.paused ∧ t.stack <+: s.stack)

/-- R110 (the spec's decision D15): a step request while paused or faulted has no transition, and the host's request is
refused with no change.  That a faulted engine answers with its record and a paused one with a refusal is this model's
choice (log 3). -/
def Obligations.StepRefusedWhenNotReady : Prop :=
  ∀ s : State, s.stepReady = false →
    (∀ t, step s ≠ .next t) ∧ serve .step s = (.refused, s) ∧
      (∀ r, s.fault = some r → step s = .fault (.latched r)) ∧ (s.fault = none → step s = .refused .paused)

/-- R117: the host's step request answers `Ok` for a step that completes and `Fault` with the record that was latched
for one that raised a fault; `Halt` answers `Ok`; there is no third outcome. -/
def Obligations.StepAnswersOkOrFault : Prop :=
  (∀ s : State, s.stepReady = true →
    ∃ t, step s = .next t ∧
      ((t.fault = none ∧ serve .step s = (.ok, t)) ∨
        ∃ r, t.fault = some r ∧ serve .step s = (.fault r, t))) ∧
  (∀ s : State, s.stepReady = true → fetch s = .ok .halt → (serve .step s).1 = .ok)

/-- R120, R245 (the spec's decision D15): a stop request sets the paused flag and changes nothing else, in every state;
with a step request at the same moment the stop is taken first and the step is refused. -/
def Obligations.StopRequestPauses : Prop :=
  ∀ s : State, serve .stop s = (.ok, { s with paused := true }) ∧
    serve .stopWithStep s = (.refused, { s with paused := true })

/-! ## Construction and reset -/

/-- R281, R40 (the zero fill and the refusal of an over-long image are the spec's decision D2, `pc`, the call stack and
the flags its decision D22): construction loads the image verbatim from address 0 and clears everything else. -/
def Obligations.ConstructionLoadsTheImage : Prop :=
  ∀ (c : Config) (image : List Byte),
    (65536 < image.length → construct c image = none) ∧
    (image.length ≤ 65536 →
      ∃ s, construct c image = some s ∧ s.config = c ∧ s.pc = 0 ∧ s.stack = [] ∧ s.callStack = [] ∧
        s.paused = false ∧ s.fault = none ∧ s.Inv ∧
        (∀ a, a < image.length → image[a]? = some (Sparse.read s.memory a)) ∧
        (∀ a, image.length ≤ a → Sparse.read s.memory a = 0#8) ∧ ∀ i, Sparse.read s.display i = 0#32)

/-- The state after reset meets the invariant of R41. -/
def Obligations.ResetMeetsTheInvariant : Prop := State.reset.Inv

/-! ## System and stack instructions -/

/-- R130, R132, R116: `Nop` and `Halt` complete from every state; `Nop` changes `pc` alone, `Halt` sets the paused flag
and `pc` does advance. -/
def Obligations.NopAndHaltComplete : Prop :=
  ∀ s : State, exec .nop s = .next { s with pc := (s.pc + 1) % 2 ^ s.config.pcBits } ∧
    exec .halt s = .next { s with paused := true, pc := (s.pc + 1) % 2 ^ s.config.pcBits }

/-- R140: `Push` appends its immediate and goes on 9 bytes further, unless the operand stack is full. -/
def Obligations.PushAppendsTheImmediate : Prop :=
  ∀ (s : State) (imm : Word), s.config.opStackMax ≠ some s.stack.length →
    exec (.push imm) s = .next { s with stack := s.stack ++ [imm], pc := (s.pc + 9) % 2 ^ s.config.pcBits }

/-- R142, R144, R146: the stack pictures of `Pop`, `Swap` and `Dupe`. -/
def Obligations.PopSwapDupeStackPictures : Prop :=
  (∀ (s : State) (S : List Word) (b : Word), s.stack = S ++ [b] →
    exec .pop s = .next { s with stack := S, pc := (s.pc + 1) % 2 ^ s.config.pcBits }) ∧
  (∀ (s : State) (S : List Word) (a b : Word), s.stack = S ++ [a, b] →
    withinCapacity s.config.opStackMax s.stack.length →
      exec .swap s = .next { s with stack := S ++ [b, a], pc := (s.pc + 1) % 2 ^ s.config.pcBits }) ∧
  (∀ (s : State) (S : List Word) (v : Word), s.stack = S ++ [v] →
    s.config.opStackMax ≠ some s.stack.length →
      exec .dupe s = .next { s with stack := S ++ [v, v], pc := (s.pc + 1) % 2 ^ s.config.pcBits })

/-- R148: `DupeAt` copies the cell at index `len(S) - imm64` when `1 <= imm64 <= len(S)`, and otherwise raises
`StackIndexOutOfRange` with nothing popped (the fault's kind and the exact subtraction are the spec's decision D19). -/
def Obligations.DupeAtCopiesTheIndexedCell : Prop :=
  ∀ (s : State) (imm : Word),
    (1 ≤ imm.toInt → imm.toInt ≤ s.stack.length → s.config.opStackMax ≠ some s.stack.length →
      ∃ v, s.stack[s.stack.length - imm.toInt.toNat]? = some v ∧
        exec (.dupeAt imm) s = .next { s with stack := s.stack ++ [v], pc := (s.pc + 9) % 2 ^ s.config.pcBits }) ∧
    ((imm.toInt < 1 ∨ (s.stack.length : Int) < imm.toInt) →
      exec (.dupeAt imm) s = .next { s with fault := some ⟨.stackIndexOutOfRange imm, s.pc⟩ })

/-- R232 kinds 12 and 13 (the spec's decision D14): a push onto a full stack of finite capacity raises `StackOverflow`,
and a `Call` on a full call stack raises `CallStackOverflow` after its destination was popped. -/
def Obligations.FullStacksFault : Prop :=
  (∀ s : State, s.config.opStackMax = some s.stack.length →
    (∀ imm, exec (.push imm) s = .next { s with fault := some ⟨.stackOverflow, s.pc⟩ }) ∧
    (s.stack ≠ [] → exec .dupe s = .next { s with fault := some ⟨.stackOverflow, s.pc⟩ }) ∧
    (∀ imm : Word, 1 ≤ imm.toInt → imm.toInt ≤ s.stack.length →
      exec (.dupeAt imm) s = .next { s with fault := some ⟨.stackOverflow, s.pc⟩ })) ∧
  (∀ (s : State) (S : List Word) (dest : Word), s.config.callStackMax = some s.callStack.length →
    s.stack = S ++ [dest] →
      exec .call s = .next { s with stack := S, fault := some ⟨.callStackOverflow, s.pc⟩ })

/-- R232 kind 3, R243: the instructions that pop raise `StackUnderflow` on too shallow a stack; a cell popped before
the fault stays popped (the spec's decision D9), and `Dupe` on an empty stack is one of them (D19). -/
def Obligations.ShallowStackUnderflows : Prop :=
  (∀ i ∈ [Instr.pop, .swap, .dupe, .add, .mul, .sub, .div, .jump, .loadU8, .storeU8, .call], ∀ s : State,
    s.stack = [] → exec i s = .next { s with fault := some ⟨.stackUnderflow, s.pc⟩ }) ∧
  (∀ i ∈ [Instr.swap, .add, .mul, .sub, .div, .storeU8], ∀ (s : State) (v : Word),
    s.stack = [v] → exec i s = .next { s with stack := [], fault := some ⟨.stackUnderflow, s.pc⟩ })

/-- R144: `Swap; Swap` is the identity on operand stacks of length at least 2 (but for `pc`). -/
def Obligations.SwapTwiceRestoresTheStack : Prop :=
  ∀ s : State, 2 ≤ s.stack.length → withinCapacity s.config.opStackMax s.stack.length →
    ∃ t, exec .swap s = .next t ∧ exec .swap t = .next { s with pc := (s.pc + 2) % 2 ^ s.config.pcBits }

/-- R146: on a stack that is not empty `Dupe` is the same operation as `DupeAt 1`, but for its length. -/
def Obligations.DupeIsDupeAtOne : Prop :=
  ∀ (s t : State), s.stack ≠ [] → exec .dupe s = .next t → t.fault = none →
    exec (.dupeAt 1#64) s = .next { t with pc := (s.pc + 9) % 2 ^ s.config.pcBits }

/-! ## Arithmetic -/

/-- R160 to R163, under `ARITH_OVERFLOW = wrap` (the spec's decision D6): the result is the 64-bit sum, product or
difference of the two top cells, `Sub` being top minus next (conflict C2). -/
def Obligations.ArithmeticWraps : Prop :=
  ∀ (s : State) (S : List Word) (a b : Word), s.stack = S ++ [a, b] → s.config.arithOverflow = .wrap →
    withinCapacity s.config.opStackMax s.stack.length →
      exec .add s = .next { s with stack := S ++ [a + b], pc := (s.pc + 1) % 2 ^ s.config.pcBits } ∧
      exec .mul s = .next { s with stack := S ++ [a * b], pc := (s.pc + 1) % 2 ^ s.config.pcBits } ∧
      exec .sub s = .next { s with stack := S ++ [b - a], pc := (s.pc + 1) % 2 ^ s.config.pcBits }

/-- R161 to R163, R164: where the exact result is an `i64`, it is the result, under either value of `ARITH_OVERFLOW`. -/
def Obligations.ArithmeticInRangeIsExact : Prop :=
  ∀ (s : State) (S : List Word) (a b : Word), s.stack = S ++ [a, b] →
    withinCapacity s.config.opStackMax s.stack.length →
      (-(2 ^ 63) ≤ a.toInt + b.toInt → a.toInt + b.toInt < 2 ^ 63 →
        ∃ r : Word, r.toInt = a.toInt + b.toInt ∧
          exec .add s = .next { s with stack := S ++ [r], pc := (s.pc + 1) % 2 ^ s.config.pcBits }) ∧
      (-(2 ^ 63) ≤ a.toInt * b.toInt → a.toInt * b.toInt < 2 ^ 63 →
        ∃ r : Word, r.toInt = a.toInt * b.toInt ∧
          exec .mul s = .next { s with stack := S ++ [r], pc := (s.pc + 1) % 2 ^ s.config.pcBits }) ∧
      (-(2 ^ 63) ≤ b.toInt - a.toInt → b.toInt - a.toInt < 2 ^ 63 →
        ∃ r : Word, r.toInt = b.toInt - a.toInt ∧
          exec .sub s = .next { s with stack := S ++ [r], pc := (s.pc + 1) % 2 ^ s.config.pcBits })

/-- R160: under `ARITH_OVERFLOW = fault` a result outside `i64` raises `ArithmeticOverflow` after both pops and before
the push (the alternative of the spec's decision D6; no rollback by D9). -/
def Obligations.ArithmeticOverflowFaults : Prop :=
  ∀ (s : State) (S : List Word) (a b : Word), s.stack = S ++ [a, b] → s.config.arithOverflow = .fault →
    ((a.toInt + b.toInt < -(2 ^ 63) ∨ 2 ^ 63 ≤ a.toInt + b.toInt) →
      exec .add s = .next { s with stack := S, fault := some ⟨.arithmeticOverflow, s.pc⟩ }) ∧
    ((a.toInt * b.toInt < -(2 ^ 63) ∨ 2 ^ 63 ≤ a.toInt * b.toInt) →
      exec .mul s = .next { s with stack := S, fault := some ⟨.arithmeticOverflow, s.pc⟩ }) ∧
    ((b.toInt - a.toInt < -(2 ^ 63) ∨ 2 ^ 63 ≤ b.toInt - a.toInt) →
      exec .sub s = .next { s with stack := S, fault := some ⟨.arithmeticOverflow, s.pc⟩ })

/-- R165, R166: `Div` divides the top by the cell under it (conflict C3) and rounds toward zero: the quotient times the
divisor and a remainder make the dividend, the remainder being smaller than the divisor and 0 or of the dividend's
sign. -/
def Obligations.DivTruncatesTowardZero : Prop :=
  ∀ (s : State) (S : List Word) (a b : Word), s.stack = S ++ [a, b] → a.toInt ≠ 0 →
    ¬ (b.toInt = -(2 ^ 63) ∧ a.toInt = -1) → withinCapacity s.config.opStackMax s.stack.length →
      ∃ (q : Word) (r : Int), b.toInt = q.toInt * a.toInt + r ∧ |r| < |a.toInt| ∧
        (r = 0 ∨ r.sign = b.toInt.sign) ∧
        exec .div s = .next { s with stack := S ++ [q], pc := (s.pc + 1) % 2 ^ s.config.pcBits }

/-- R165: a zero divisor raises `DivisionByZero` whatever the dividend; -2^63 by -1 raises `DivisionOverflow`, or under
`DIV_OVERFLOW = wrap` gives -2^63 (the spec's decision D7).  Both operands are gone after the fault (D9). -/
def Obligations.DivFaultsOnZeroAndOverflow : Prop :=
  ∀ (s : State) (S : List Word) (a b : Word), s.stack = S ++ [a, b] →
    (a.toInt = 0 → exec .div s = .next { s with stack := S, fault := some ⟨.divisionByZero, s.pc⟩ }) ∧
    (b.toInt = -(2 ^ 63) → a.toInt = -1 → s.config.divOverflow = .fault →
      exec .div s = .next { s with stack := S, fault := some ⟨.divisionOverflow, s.pc⟩ }) ∧
    (b.toInt = -(2 ^ 63) → a.toInt = -1 → s.config.divOverflow = .wrap →
      withinCapacity s.config.opStackMax s.stack.length →
        exec .div s = .next { s with stack := S ++ [b], pc := (s.pc + 1) % 2 ^ s.config.pcBits })

/-! ## Control transfer -/

/-- R180 (conflict C1, the spec's decision D4): `Jump` lands at the popped value, at 0 for a negative one, with nothing
added; it never faults on the value.  The value is what `PC_BITS` bits hold of it: all of it under the default of 64
(the spec's decision D3; that a narrower counter truncates is DEDUCED from D3's wording, log 6). -/
def Obligations.JumpLandsAtThePoppedValue : Prop :=
  ∀ (s : State) (S : List Word) (dest : Word), s.stack = S ++ [dest] →
    exec .jump s = .next { s with stack := S, pc := if dest.toInt < 0 then 0 else dest.toNat % 2 ^ s.config.pcBits }

/-- R184 (the spec's decisions D4 and D5): `Call` pushes a frame with its own address and goes to the 64-bit pattern of
the popped value, with no clamp, as `PC_BITS` bits hold it (log 6). -/
def Obligations.CallPushesItsAddress : Prop :=
  ∀ (s : State) (S : List Word) (dest : Word), s.stack = S ++ [dest] →
    s.config.callStackMax ≠ some s.callStack.length →
      exec .call s = .next { s with
        stack := S
        callStack := s.callStack ++ [⟨s.pc⟩]
        pc := dest.toNat % 2 ^ s.config.pcBits }

/-- R187 (the spec's decision D5): `Ret` removes the most recent frame and goes to the byte after its `Call`; with no
frame it raises `ReturnWithEmptyCallStack`. -/
def Obligations.RetResumesAfterTheCall : Prop :=
  (∀ (s : State) (C : List Frame) (f : Frame), s.callStack = C ++ [f] →
    exec .ret s = .next { s with callStack := C, pc := (f.ret + 1) % 2 ^ s.config.pcBits }) ∧
  (∀ s : State, s.callStack = [] →
    exec .ret s = .next { s with fault := some ⟨.returnWithEmptyCallStack, s.pc⟩ })

/-- R187, R188 (the source's property S10): a `Call` and a `Ret` that finds the call stack the `Call` left resume at the
instruction after the `Call`, whatever else the callee did. -/
def Obligations.CallThenRetResumesAfterTheCall : Prop :=
  ∀ s t u : State, exec .call s = .next t → t.fault = none → u.callStack = t.callStack →
    exec .ret u = .next { u with callStack := s.callStack, pc := (s.pc + 1) % 2 ^ u.config.pcBits }

/-! ## Load, store, interrupt services -/

/-- R200, R64: `LoadU8` replaces the address by the zero-extended byte there, the window read like any other memory;
an address outside 0 .. 65,535 raises `MemoryOutOfBounds` with the address popped (the spec's decisions D9, D19). -/
def Obligations.LoadPushesTheByte : Prop :=
  ∀ (s : State) (S : List Word) (addr : Word), s.stack = S ++ [addr] →
    (0 ≤ addr.toInt → addr.toInt < 65536 → withinCapacity s.config.opStackMax s.stack.length →
      ∃ v : Word, v.toNat = (Sparse.read s.memory addr.toInt.toNat).toNat ∧
        exec .loadU8 s = .next { s with stack := S ++ [v], pc := (s.pc + 1) % 2 ^ s.config.pcBits }) ∧
    ((addr.toInt < 0 ∨ 65536 ≤ addr.toInt) →
      exec .loadU8 s = .next { s with stack := S, fault := some ⟨.memoryOutOfBounds addr, s.pc⟩ })

/-- R202, R62: `StoreU8` to an address of memory outside the window writes the low byte of the value under the address,
and changes no other byte. -/
def Obligations.StoreWritesTheLowByte : Prop :=
  ∀ (s : State) (S : List Word) (value addr : Word), s.stack = S ++ [value, addr] → Memory.wf s.memory →
    0 ≤ addr.toInt → addr.toInt < 65536 → ¬ (0x8000 ≤ addr.toInt ∧ addr.toInt < 0x9000) →
      ∃ m, exec .storeU8 s = .next { s with stack := S, memory := m, pc := (s.pc + 1) % 2 ^ s.config.pcBits } ∧
        (Sparse.read m addr.toInt.toNat).toNat = value.toNat % 256 ∧
        ∀ a, a ≠ addr.toInt.toNat → Sparse.read m a = Sparse.read s.memory a

/-- R61, R62 (conflict C6): `StoreU8` to a window address sets display cell `addr - 0x8000` to the low byte in all four
bytes, changes no other cell and leaves memory as it was; a cell the display does not have raises `DisplayOutOfBounds`
with both cells popped (the spec's decisions D11, D9). -/
def Obligations.WindowStoreDrawsACell : Prop :=
  ∀ (s : State) (S : List Word) (value addr : Word), s.stack = S ++ [value, addr] →
    0x8000 ≤ addr.toInt → addr.toInt < 0x9000 →
      (Sparse.wf s.config.displayCells s.display →
        addr.toInt - 0x8000 < (s.config.displayWidth * s.config.displayHeight : Nat) →
          ∃ d, exec .storeU8 s = .next { s with stack := S, display := d, pc := (s.pc + 1) % 2 ^ s.config.pcBits } ∧
            Sparse.read d (addr.toInt.toNat - 0x8000) =
              value.setWidth 8 ++ value.setWidth 8 ++ value.setWidth 8 ++ value.setWidth 8 ∧
            ∀ i, i ≠ addr.toInt.toNat - 0x8000 → Sparse.read d i = Sparse.read s.display i) ∧
      ((s.config.displayWidth * s.config.displayHeight : Nat) ≤ addr.toInt - 0x8000 →
        exec .storeU8 s =
          .next { s with stack := S, fault := some ⟨.displayOutOfBounds (addr.toInt - 0x8000), s.pc⟩ })

/-- R62, R202: `StoreU8` to an address outside 0 .. 65,535 raises `MemoryOutOfBounds`; nothing is written, both cells
are popped (the spec's decisions D9, D19). -/
def Obligations.StoreOutsideMemoryFaults : Prop :=
  ∀ (s : State) (S : List Word) (value addr : Word), s.stack = S ++ [value, addr] →
    (addr.toInt < 0 ∨ 65536 ≤ addr.toInt) →
      exec .storeU8 s = .next { s with stack := S, fault := some ⟨.memoryOutOfBounds addr, s.pc⟩ }

/-- R70, R63, R200, R202: a load after a store gives the stored byte at the stored address outside the window, and at
every other address, the window's among them, the byte that was there before. -/
def Obligations.LoadAfterStoreReadsTheStoredByte : Prop :=
  ∀ (s t u : State) (S U : List Word) (value addr addr' : Word), Memory.wf s.memory →
    s.stack = S ++ [value, addr] → exec .storeU8 s = .next t → t.fault = none →
    u.memory = t.memory → u.stack = U ++ [addr'] → withinCapacity u.config.opStackMax u.stack.length →
    0 ≤ addr'.toInt → addr'.toInt < 65536 →
      ∃ v : Word, exec .loadU8 u = .next { u with stack := U ++ [v], pc := (u.pc + 1) % 2 ^ u.config.pcBits } ∧
        v.toNat = if addr' = addr ∧ ¬ (0x8000 ≤ addr.toInt ∧ addr.toInt < 0x9000) then value.toNat % 256
          else (Sparse.read s.memory addr'.toInt.toNat).toNat

/-- R72: a byte stored outside the window is what every later fetch at that address finds, with nothing in between. -/
def Obligations.StoredByteIsFetched : Prop :=
  ∀ (s t u : State) (S : List Word) (value addr : Word), Memory.wf s.memory →
    s.stack = S ++ [value, addr] → exec .storeU8 s = .next t → t.fault = none →
    ¬ (0x8000 ≤ addr.toInt ∧ addr.toInt < 0x9000) → u.memory = t.memory → (u.pc : Int) = addr.toInt →
      u.fetchBytes.head? = some (value.setWidth 8)

/-- R212, R210: service 0x00 writes the low 32 bits of the colour (the spec's decision D12) to the cell whose number is
under it, changing no other cell; an index outside the display raises `DisplayOutOfBounds` (D11) with both arguments
popped. -/
def Obligations.PixelServiceByIndex : Prop :=
  ∀ (s : State) (S : List Word) (index color : Word), s.stack = S ++ [index, color] →
    (Sparse.wf s.config.displayCells s.display → 0 ≤ index.toInt →
      index.toInt < (s.config.displayWidth * s.config.displayHeight : Nat) →
        ∃ d, exec (.interrupt 0x00#8) s = .next
            { s with stack := S, display := d, pc := (s.pc + 2) % 2 ^ s.config.pcBits } ∧
          (Sparse.read d index.toInt.toNat).toNat = color.toNat % 2 ^ 32 ∧
          ∀ i, i ≠ index.toInt.toNat → Sparse.read d i = Sparse.read s.display i) ∧
    ((index.toInt < 0 ∨ (s.config.displayWidth * s.config.displayHeight : Nat) ≤ index.toInt) →
      exec (.interrupt 0x00#8) s =
        .next { s with stack := S, fault := some ⟨.displayOutOfBounds index.toInt, s.pc⟩ })

/-- R214, R210: service 0x01 writes to cell `y * DISPLAY_WIDTH + x`, computed exactly and checked as one index (the
spec's decision D13). -/
def Obligations.PixelServiceByCoordinates : Prop :=
  ∀ (s : State) (S : List Word) (x y color : Word), s.stack = S ++ [x, y, color] →
    (Sparse.wf s.config.displayCells s.display → 0 ≤ y.toInt * s.config.displayWidth + x.toInt →
      y.toInt * s.config.displayWidth + x.toInt < (s.config.displayWidth * s.config.displayHeight : Nat) →
        ∃ d, exec (.interrupt 0x01#8) s = .next
            { s with stack := S, display := d, pc := (s.pc + 2) % 2 ^ s.config.pcBits } ∧
          (Sparse.read d (y.toInt * s.config.displayWidth + x.toInt).toNat).toNat = color.toNat % 2 ^ 32 ∧
          ∀ i, i ≠ (y.toInt * s.config.displayWidth + x.toInt).toNat → Sparse.read d i = Sparse.read s.display i) ∧
    ((y.toInt * s.config.displayWidth + x.toInt < 0 ∨
        (s.config.displayWidth * s.config.displayHeight : Nat) ≤ y.toInt * s.config.displayWidth + x.toInt) →
      exec (.interrupt 0x01#8) s =
        .next { s with
          stack := S
          fault := some ⟨.displayOutOfBounds (y.toInt * s.config.displayWidth + x.toInt), s.pc⟩ })

/-- R214: service 0x01 with `(x, y, color)` does what service 0x00 does with the cell number of `(x, y)`. -/
def Obligations.CoordinatesAgreeWithIndex : Prop :=
  ∀ (s : State) (S : List Word) (x y index color : Word),
    index.toInt = y.toInt * s.config.displayWidth + x.toInt →
      exec (.interrupt 0x01#8) { s with stack := S ++ [x, y, color] } =
        exec (.interrupt 0x00#8) { s with stack := S ++ [index, color] }

/-- R210, R93: an interrupt code other than 0x00 and 0x01 raises `UnknownInterrupt` with the operand stack untouched
(the spec's decision D20). -/
def Obligations.UnknownInterruptCodeFaults : Prop :=
  ∀ (s : State) (code : Byte), 0x02 ≤ code.toNat →
    exec (.interrupt code) s = .next { s with fault := some ⟨.unknownInterrupt code, s.pc⟩ }

/-- R212, R214, R243: a missing argument raises `InterruptArgUnderflow` with its name (the spec's decision D26), the
arguments before it popped (D9). -/
def Obligations.MissingInterruptArgumentFaults : Prop :=
  ∀ s : State,
    (s.stack = [] → ∀ code ∈ [0x00#8, 0x01#8],
      exec (.interrupt code) s = .next { s with fault := some ⟨.interruptArgUnderflow .color, s.pc⟩ }) ∧
    (∀ c, s.stack = [c] →
      exec (.interrupt 0x00#8) s =
        .next { s with stack := [], fault := some ⟨.interruptArgUnderflow .index, s.pc⟩ } ∧
      exec (.interrupt 0x01#8) s =
        .next { s with stack := [], fault := some ⟨.interruptArgUnderflow .y, s.pc⟩ }) ∧
    (∀ y c, s.stack = [y, c] →
      exec (.interrupt 0x01#8) s =
        .next { s with stack := [], fault := some ⟨.interruptArgUnderflow .x, s.pc⟩ })

/-! ## Frames -/

/-- The frame of every instruction but `StoreU8` and `Interrupt`: no byte of memory, no display cell and no parameter
changes; the paused flag changes by `Halt` alone, the call stack by `Call` and `Ret` alone, the operand stack not by
`Nop`, `Halt` and `Ret`; the latch stays or takes a record of this instruction, and then `pc` stays. -/
def Obligations.FrameOfNonStoringInstructions : Prop :=
  ∀ (i : Instr) (s t : State), i ≠ .storeU8 → i.mnemonic ≠ .interrupt → exec i s = .next t →
    (∀ a, Sparse.read t.memory a = Sparse.read s.memory a) ∧
    (∀ c, Sparse.read t.display c = Sparse.read s.display c) ∧ t.config = s.config ∧
    (i ≠ .halt → t.paused = s.paused) ∧ (i ≠ .call → i ≠ .ret → t.callStack = s.callStack) ∧
    (i = .nop ∨ i = .halt ∨ i = .ret → t.stack = s.stack) ∧
    (t.fault = s.fault ∨ ∃ k, t.fault = some ⟨k, s.pc⟩ ∧ t.pc = s.pc)

/-- The frame of `StoreU8`: with the address on top, only the byte or the display cell that `storeTarget` gives for it
may change; of the operand stack only top cells may go; the call stack, the paused flag and the parameters stay. -/
def Obligations.FrameOfStoreU8 : Prop :=
  ∀ (s t : State), exec .storeU8 s = .next t →
    (∀ (addr : Word) (a : Nat), s.stack.getLast? = some addr → storeTarget addr ≠ .byte a →
      Sparse.read t.memory a = Sparse.read s.memory a) ∧
    (∀ (addr : Word) (c : Nat), s.stack.getLast? = some addr → storeTarget addr ≠ .cell c →
      Sparse.read t.display c = Sparse.read s.display c) ∧
    (s.stack = [] → t.memory = s.memory ∧ t.display = s.display) ∧
    t.stack <+: s.stack ∧ t.callStack = s.callStack ∧ t.paused = s.paused ∧ t.config = s.config ∧
    (t.fault = s.fault ∨ ∃ k, t.fault = some ⟨k, s.pc⟩ ∧ t.pc = s.pc)

/-- The frame of `Interrupt`: no byte of memory changes (conflict C5); a display cell changes only if it is the one the
service computes from its arguments; the call stack, the paused flag and the parameters stay. -/
def Obligations.FrameOfInterrupt : Prop :=
  ∀ (code : Byte) (s t : State), exec (.interrupt code) s = .next t →
    (∀ a, Sparse.read t.memory a = Sparse.read s.memory a) ∧
    (∀ c, Sparse.read t.display c ≠ Sparse.read s.display c →
      (code = 0x00#8 ∧ ∃ S index color, s.stack = S ++ [index, color] ∧ index.toInt = (c : Int)) ∨
        (code = 0x01#8 ∧ ∃ S x y color, s.stack = S ++ [x, y, color] ∧
          pixelIndex s.config.displayWidth x y = (c : Int))) ∧
    t.stack <+: s.stack ∧ t.callStack = s.callStack ∧ t.paused = s.paused ∧ t.config = s.config ∧
    (t.fault = s.fault ∨ ∃ k, t.fault = some ⟨k, s.pc⟩ ∧ t.pc = s.pc)

/-! ## The whole machine -/

/-- R41: the invariant of every reachable state (memory and display in their canonical form and size, return locations
in memory, `pc` within its width and at a latched fault's address, stacks within their capacities) is kept by every step. -/
def Obligations.StepKeepsTheInvariant : Prop :=
  ∀ s t : State, s.Inv → step s = .next t → t.Inv

/-- R41, R286: every host transaction keeps the invariant, a construction establishing it anew. -/
def Obligations.RequestsKeepTheInvariant : Prop :=
  ∀ (r : Request) (s : State), s.Inv → (serve r s).2.Inv

/-- R30, R38: no outcome depends on the content of the display: runs from two states that differ only in the display
give states that differ only in the display. -/
def Obligations.RunsDoNotReadTheDisplay : Prop :=
  ∀ (k : Nat) (s t : State) (d : Display), Host.Core.run Sys2Proof.core k s = .next t →
    ∃ t' : State, Host.Core.run Sys2Proof.core k { s with display := d } = .next t' ∧
      { t' with display := t.display } = t

/-- R63, R72: however a constructed engine runs, every byte of the window `0x8000 .. 0x8FFF` is still the image's byte
there, or 0 beyond the image (the zero fill is the spec's decision D2). -/
def Obligations.WindowBytesStayAsConstructed : Prop :=
  ∀ (c : Config) (image : List Byte) (k : Nat) (s t : State) (a : Nat), construct c image = some s →
    Host.Core.run Sys2Proof.core k s = .next t → 0x8000 ≤ a → a < 0x9000 →
      Sparse.read t.memory a = (image[a]?).getD 0#8

/-- R26, R62: a step that changes a byte of memory ran `StoreU8` with that byte's address on top, an address of memory
outside the display window, and did not fault. -/
def Obligations.OnlyStoreU8WritesMemory : Prop :=
  ∀ (s t : State) (a : Nat), step s = .next t → Sparse.read t.memory a ≠ Sparse.read s.memory a →
    fetch s = .ok .storeU8 ∧ t.fault = none ∧ a < 65536 ∧ ¬ (0x8000 ≤ a ∧ a < 0x9000) ∧
      ∃ S value addr, s.stack = S ++ [value, addr] ∧ addr.toInt = (a : Int)

/-- R32: a step leaves the engine paused exactly when it ran `Halt`. -/
def Obligations.OnlyHaltPauses : Prop :=
  ∀ s t : State, step s = .next t → (t.paused = true ↔ fetch s = .ok .halt)

/-- R25, R116 (its (c) and (d) by the spec's decisions D4 and D5): how `pc` changes from a state that meets the
invariant: by the instruction's length, or to the target of a `Jump`, `Call` or `Ret`, as `PC_BITS` bits hold it; a
faulting step leaves it.  A counter of at least 17 bits holds every sum without wrap-around, one of at least 64, the
default (the spec's decision D3), every target. -/
def Obligations.HowPcChanges : Prop :=
  ∀ (s t : State) (i : Instr), s.Inv → fetch s = .ok i → step s = .next t →
    (t.fault ≠ none → t.pc = s.pc) ∧
    (t.fault = none →
      (i ≠ .jump → i ≠ .call → i ≠ .ret →
        t.pc = (s.pc + i.mnemonic.length) % 2 ^ s.config.pcBits ∧
        (17 ≤ s.config.pcBits → t.pc = s.pc + i.mnemonic.length)) ∧
      (i = .jump → ∃ S dest, s.stack = S ++ [dest] ∧ t.pc = (max dest.toInt 0).toNat % 2 ^ s.config.pcBits ∧
        (64 ≤ s.config.pcBits → (t.pc : Int) = max dest.toInt 0)) ∧
      (i = .call → ∃ S dest, s.stack = S ++ [dest] ∧ t.pc = dest.toNat % 2 ^ s.config.pcBits ∧
        (64 ≤ s.config.pcBits → (t.pc : Int) = dest.toInt % 2 ^ 64)) ∧
      (i = .ret → ∃ C f, s.callStack = C ++ [f] ∧ t.pc = (f.ret + 1) % 2 ^ s.config.pcBits ∧
        (17 ≤ s.config.pcBits → t.pc = f.ret + 1)))

/-- R21's table: how many cells each instruction pops and pushes, as the net change of the stack's length over a step
that does not fault. -/
def Obligations.NetChangeOfTheOperandStack : Prop :=
  ∀ (s t : State) (i : Instr), fetch s = .ok i → step s = .next t → t.fault = none →
    (t.stack.length : Int) = s.stack.length +
      match i with
      | .nop | .halt | .ret | .swap | .loadU8 => 0
      | .push _ | .dupe | .dupeAt _ => 1
      | .pop | .jump | .call | .add | .mul | .sub | .div => -1
      | .storeU8 => -2
      | .interrupt code => if code = 0x00#8 then -2 else -3

/-- R244, R232: the fault codes each instruction's execution can raise, from a state within its stack capacity. -/
def Obligations.EachInstructionRaisesOnlyItsFaults : Prop :=
  ∀ (s t : State) (i : Instr) (r : FaultRecord), s.stepReady = true →
    withinCapacity s.config.opStackMax s.stack.length → exec i s = .next t → t.fault = some r →
      r.kind.code ∈
        match i with
        | .nop | .halt => ([] : List Nat)
        | .push _ => [12]
        | .pop | .jump | .swap => [3]
        | .add | .mul | .sub => [3, 14]
        | .div => [3, 6, 7]
        | .dupe => [3, 12]
        | .dupeAt _ => [4, 12]
        | .loadU8 => [3, 5]
        | .storeU8 => [3, 5, 11]
        | .call => [3, 13]
        | .ret => [10]
        | .interrupt _ => [8, 9, 11]

/-- R238: with unbounded stacks and `ARITH_OVERFLOW = wrap` the kinds 12, 13 and 14 are never raised: the faults that
can occur are kinds 1 to 11. -/
def Obligations.DefaultParametersRaiseKindsOneToEleven : Prop :=
  ∀ (s t : State) (r : FaultRecord), s.config.opStackMax = none → s.config.callStackMax = none →
    s.config.arithOverflow = .wrap → step s = .next t → t.fault = some r → 1 ≤ r.kind.code ∧ r.kind.code ≤ 11

/-- R246, R33 (the latch is the spec's decision D15): no transaction but a new construction changes a latched fault or
anything else of a faulted engine, except that a stop request sets `paused`; a step request is refused. -/
def Obligations.FaultIsFinalUntilConstruction : Prop :=
  ∀ (r : Request) (s : State) (f : FaultRecord), (∀ image w h, r ≠ .construct image w h) → s.fault = some f →
    (serve r s).2.fault = some f ∧ ((serve r s).2 = s ∨ (serve r s).2 = { s with paused := true }) ∧
      serve .step s = (.refused, s)

/-- The canonical form of memory (this model's representation, log 9; the size is R26's): two memories in it that read
alike at every address of memory are equal data. -/
def Obligations.MemoriesThatReadAlikeAreEqual : Prop :=
  ∀ m n : Memory, m.wf → n.wf → (∀ a, a < 65536 → Sparse.read m a = Sparse.read n a) → m = n

/-- R262, R71, R286: the debug read gives the byte of every address of memory and of no other, and a snapshot holds
every display cell by its number. -/
def Obligations.DebugReadsAndSnapshot : Prop :=
  ∀ s : State,
    (∀ a, a < 65536 → s.debugByte a = some (Sparse.read s.memory a)) ∧ (∀ a, 65536 ≤ a → s.debugByte a = none) ∧
    s.snapshot.length = s.config.displayWidth * s.config.displayHeight ∧
    ∀ i, i < s.config.displayWidth * s.config.displayHeight → s.snapshot[i]? = some (Sparse.read s.display i)

/-- R280, R281, R286 (the refusal of an over-long image is the spec's decision D2; that the parameters other than the
display's size stay, and that a refused construction leaves the engine as it was, are this model's choice, log 26): a
construction request answers `Ok` with a new engine of the given image and size, whatever the old one held, and is
refused for an image that does not fit. -/
def Obligations.ConstructRequestReplacesTheEngine : Prop :=
  ∀ (s : State) (image : List Byte) (w h : Nat),
    (image.length ≤ 65536 →
      ∃ t, serve (.construct image w h) s = (.ok, t) ∧
        t.config = { s.config with displayWidth := w, displayHeight := h } ∧
        t.pc = 0 ∧ t.stack = [] ∧ t.callStack = [] ∧ t.paused = false ∧ t.fault = none ∧ t.Inv ∧
        (∀ a, a < image.length → image[a]? = some (Sparse.read t.memory a)) ∧
        (∀ a, image.length ≤ a → Sparse.read t.memory a = 0#8) ∧ ∀ i, Sparse.read t.display i = 0#32) ∧
    (65536 < image.length → serve (.construct image w h) s = (.refused, s))

/-- R62, R63: no step, from any state, changes a byte of the window `0x8000 .. 0x8FFF` of memory. -/
def Obligations.StepKeepsTheWindowBytes : Prop :=
  ∀ (s t : State) (a : Nat), step s = .next t → 0x8000 ≤ a → a < 0x9000 →
    Sparse.read t.memory a = Sparse.read s.memory a
end

