-- ==== Sys2Proof/Laws/Decode.lean ====
section
/-! SUPPORT. Little-endian bytes and opcode maps. -/

namespace Sys2Proof

@[simp] theorem leBytes_length (k n : Nat) : (leBytes k n).length = k := by
  induction k generalizing n with
  | zero => rfl
  | succ k ih => simp [leBytes, ih]

theorem leValue_lt (bs : List Byte) : leValue bs < 256 ^ bs.length := by
  induction bs with
  | nil => simp [leValue]
  | cons b bs ih =>
    have := b.isLt
    simp only [leValue, List.length_cons, Nat.pow_succ]
    omega

/-- The bytes of a number are worth its low part. -/
theorem leValue_leBytes (k n : Nat) : leValue (leBytes k n) = n % 256 ^ k := by
  induction k generalizing n with
  | zero => simp [leBytes, leValue, Nat.mod_one]
  | succ k ih =>
    rw [leBytes, leValue, ih, Nat.pow_succ', Nat.mod_mul, BitVec.toNat_ofNat]

/-- The bytes of the number at bytes are those bytes. -/
theorem leBytes_leValue (bs : List Byte) : leBytes bs.length (leValue bs) = bs := by
  induction bs with
  | nil => rfl
  | cons b bs ih =>
    have hb := b.isLt
    simp only [leBytes, leValue, List.length_cons]
    rw [show (b.toNat + 256 * leValue bs) / 256 = leValue bs by omega, ih,
      show BitVec.ofNat 8 (b.toNat + 256 * leValue bs) = b by apply BitVec.eq_of_toNat_eq; simp; omega]

theorem Mnemonic.mem_all (m : Mnemonic) : m ∈ Mnemonic.all := by cases m <;> decide

theorem defaultOpcodeMap_wf : OpcodeMap.wf defaultOpcodeMap := by decide

/-- A well-formed map has 17 positions. -/
theorem OpcodeMap.wf.length {map : OpcodeMap} (h : OpcodeMap.wf map) : List.length map = 17 := by
  exact List.Perm.length_eq h

/-- A well-formed map names each mnemonic once. -/
theorem OpcodeMap.wf.nodup {map : OpcodeMap} (h : OpcodeMap.wf map) : List.Nodup map :=
  (List.Perm.nodup_iff h).2 (by decide)

/-- Every instruction is well formed under a well-formed map (R87). -/
theorem OpcodeMap.wf.instr {map : OpcodeMap} (h : OpcodeMap.wf map) (i : Instr) : i.wf map :=
  (List.Perm.mem_iff h).2 i.mnemonic.mem_all

/-- A mnemonic is decoded from the byte it is encoded as. -/
theorem decodeOpcode_encodeOpcode {map : OpcodeMap} (h : OpcodeMap.wf map) (m : Mnemonic) :
    decodeOpcode map (encodeOpcode map m) = some m := by
  have hm : m ∈ map := (List.Perm.mem_iff h).2 m.mem_all
  have hlt : List.idxOf m map < List.length map := List.idxOf_lt_length_of_mem hm
  have hlen := h.length
  have hN : (encodeOpcode map m).toNat = List.idxOf m map := by
    simp only [encodeOpcode, BitVec.toNat_ofNat]
    omega
  rw [decodeOpcode, hN, List.getElem?_eq_getElem hlt, List.getElem_idxOf hlt]

/-- A byte that decodes to a mnemonic is the byte the mnemonic is encoded as. -/
theorem encodeOpcode_of_decodeOpcode {map : OpcodeMap} (h : OpcodeMap.wf map) {op : Byte} {m : Mnemonic}
    (hd : decodeOpcode map op = some m) : encodeOpcode map m = op := by
  obtain ⟨hlt, rfl⟩ := List.getElem?_eq_some_iff.1 hd
  rw [encodeOpcode, List.Nodup.idxOf_getElem h.nodup]
  simp

/-- The instruction of a mnemonic and a number has that mnemonic. -/
@[simp] theorem Mnemonic.withImmediate_mnemonic (m : Mnemonic) (n : Nat) : (m.withImmediate n).mnemonic = m := by
  cases m <;> rfl

/-- The instruction of a mnemonic and a number its immediate bytes can hold has that number as its immediate. -/
theorem Mnemonic.withImmediate_immediate (m : Mnemonic) {n : Nat} (h : n < 256 ^ m.immBytes) :
    (m.withImmediate n).immediate = n := by
  cases m <;> simp_all [Mnemonic.withImmediate, Instr.immediate, Mnemonic.immBytes]

/-- An instruction is its mnemonic with its immediate. -/
@[simp] theorem Instr.withImmediate_immediate (i : Instr) : i.mnemonic.withImmediate i.immediate = i := by
  cases i <;> simp [Instr.mnemonic, Mnemonic.withImmediate, Instr.immediate]

/-- An immediate fits in its immediate bytes. -/
theorem Instr.immediate_lt (i : Instr) : i.immediate < 256 ^ i.mnemonic.immBytes := by
  cases i <;> simp [Instr.mnemonic, Mnemonic.immBytes, Instr.immediate] <;> exact BitVec.isLt _

end Sys2Proof
end

