-- ==== Sys2Proof/Laws/State.lean ====
section
/-! SUPPORT. One lemma per field per update of the state, and fault entry field by field. -/

namespace Sys2Proof.Machine

variable (s : State)

@[simp] theorem State.setPc_config (v : Nat) : (s.setPc v).config = s.config := (rfl)
@[simp] theorem State.setPc_pc (v : Nat) : (s.setPc v).pc = v := (rfl)
@[simp] theorem State.setPc_stack (v : Nat) : (s.setPc v).stack = s.stack := (rfl)
@[simp] theorem State.setPc_callStack (v : Nat) : (s.setPc v).callStack = s.callStack := (rfl)
@[simp] theorem State.setPc_memory (v : Nat) : (s.setPc v).memory = s.memory := (rfl)
@[simp] theorem State.setPc_display (v : Nat) : (s.setPc v).display = s.display := (rfl)
@[simp] theorem State.setPc_paused (v : Nat) : (s.setPc v).paused = s.paused := (rfl)
@[simp] theorem State.setPc_fault (v : Nat) : (s.setPc v).fault = s.fault := (rfl)

@[simp] theorem State.setStack_config (v : List Word) : (s.setStack v).config = s.config := (rfl)
@[simp] theorem State.setStack_pc (v : List Word) : (s.setStack v).pc = s.pc := (rfl)
@[simp] theorem State.setStack_stack (v : List Word) : (s.setStack v).stack = v := (rfl)
@[simp] theorem State.setStack_callStack (v : List Word) : (s.setStack v).callStack = s.callStack := (rfl)
@[simp] theorem State.setStack_memory (v : List Word) : (s.setStack v).memory = s.memory := (rfl)
@[simp] theorem State.setStack_display (v : List Word) : (s.setStack v).display = s.display := (rfl)
@[simp] theorem State.setStack_paused (v : List Word) : (s.setStack v).paused = s.paused := (rfl)
@[simp] theorem State.setStack_fault (v : List Word) : (s.setStack v).fault = s.fault := (rfl)

@[simp] theorem State.setCallStack_config (v : List Frame) : (s.setCallStack v).config = s.config := (rfl)
@[simp] theorem State.setCallStack_pc (v : List Frame) : (s.setCallStack v).pc = s.pc := (rfl)
@[simp] theorem State.setCallStack_stack (v : List Frame) : (s.setCallStack v).stack = s.stack := (rfl)
@[simp] theorem State.setCallStack_callStack (v : List Frame) : (s.setCallStack v).callStack = v := (rfl)
@[simp] theorem State.setCallStack_memory (v : List Frame) : (s.setCallStack v).memory = s.memory := (rfl)
@[simp] theorem State.setCallStack_display (v : List Frame) : (s.setCallStack v).display = s.display := (rfl)
@[simp] theorem State.setCallStack_paused (v : List Frame) : (s.setCallStack v).paused = s.paused := (rfl)
@[simp] theorem State.setCallStack_fault (v : List Frame) : (s.setCallStack v).fault = s.fault := (rfl)

@[simp] theorem State.setMemory_config (v : Memory) : (s.setMemory v).config = s.config := (rfl)
@[simp] theorem State.setMemory_pc (v : Memory) : (s.setMemory v).pc = s.pc := (rfl)
@[simp] theorem State.setMemory_stack (v : Memory) : (s.setMemory v).stack = s.stack := (rfl)
@[simp] theorem State.setMemory_callStack (v : Memory) : (s.setMemory v).callStack = s.callStack := (rfl)
@[simp] theorem State.setMemory_memory (v : Memory) : (s.setMemory v).memory = v := (rfl)
@[simp] theorem State.setMemory_display (v : Memory) : (s.setMemory v).display = s.display := (rfl)
@[simp] theorem State.setMemory_paused (v : Memory) : (s.setMemory v).paused = s.paused := (rfl)
@[simp] theorem State.setMemory_fault (v : Memory) : (s.setMemory v).fault = s.fault := (rfl)

@[simp] theorem State.setDisplay_config (v : Display) : (s.setDisplay v).config = s.config := (rfl)
@[simp] theorem State.setDisplay_pc (v : Display) : (s.setDisplay v).pc = s.pc := (rfl)
@[simp] theorem State.setDisplay_stack (v : Display) : (s.setDisplay v).stack = s.stack := (rfl)
@[simp] theorem State.setDisplay_callStack (v : Display) : (s.setDisplay v).callStack = s.callStack := (rfl)
@[simp] theorem State.setDisplay_memory (v : Display) : (s.setDisplay v).memory = s.memory := (rfl)
@[simp] theorem State.setDisplay_display (v : Display) : (s.setDisplay v).display = v := (rfl)
@[simp] theorem State.setDisplay_paused (v : Display) : (s.setDisplay v).paused = s.paused := (rfl)
@[simp] theorem State.setDisplay_fault (v : Display) : (s.setDisplay v).fault = s.fault := (rfl)

@[simp] theorem State.setPaused_config (v : Bool) : (s.setPaused v).config = s.config := (rfl)
@[simp] theorem State.setPaused_pc (v : Bool) : (s.setPaused v).pc = s.pc := (rfl)
@[simp] theorem State.setPaused_stack (v : Bool) : (s.setPaused v).stack = s.stack := (rfl)
@[simp] theorem State.setPaused_callStack (v : Bool) : (s.setPaused v).callStack = s.callStack := (rfl)
@[simp] theorem State.setPaused_memory (v : Bool) : (s.setPaused v).memory = s.memory := (rfl)
@[simp] theorem State.setPaused_display (v : Bool) : (s.setPaused v).display = s.display := (rfl)
@[simp] theorem State.setPaused_paused (v : Bool) : (s.setPaused v).paused = v := (rfl)
@[simp] theorem State.setPaused_fault (v : Bool) : (s.setPaused v).fault = s.fault := (rfl)

@[simp] theorem State.setFault_config (v : Option FaultRecord) : (s.setFault v).config = s.config := (rfl)
@[simp] theorem State.setFault_pc (v : Option FaultRecord) : (s.setFault v).pc = s.pc := (rfl)
@[simp] theorem State.setFault_stack (v : Option FaultRecord) : (s.setFault v).stack = s.stack := (rfl)
@[simp] theorem State.setFault_callStack (v : Option FaultRecord) : (s.setFault v).callStack = s.callStack := (rfl)
@[simp] theorem State.setFault_memory (v : Option FaultRecord) : (s.setFault v).memory = s.memory := (rfl)
@[simp] theorem State.setFault_display (v : Option FaultRecord) : (s.setFault v).display = s.display := (rfl)
@[simp] theorem State.setFault_paused (v : Option FaultRecord) : (s.setFault v).paused = s.paused := (rfl)
@[simp] theorem State.setFault_fault (v : Option FaultRecord) : (s.setFault v).fault = v := (rfl)

@[simp] theorem State.takeFault_config (k : FaultKind) : (s.takeFault k).config = s.config := (rfl)
@[simp] theorem State.takeFault_pc (k : FaultKind) : (s.takeFault k).pc = s.pc := (rfl)
@[simp] theorem State.takeFault_stack (k : FaultKind) : (s.takeFault k).stack = s.stack := (rfl)
@[simp] theorem State.takeFault_callStack (k : FaultKind) : (s.takeFault k).callStack = s.callStack := (rfl)
@[simp] theorem State.takeFault_memory (k : FaultKind) : (s.takeFault k).memory = s.memory := (rfl)
@[simp] theorem State.takeFault_display (k : FaultKind) : (s.takeFault k).display = s.display := (rfl)
@[simp] theorem State.takeFault_paused (k : FaultKind) : (s.takeFault k).paused = s.paused := (rfl)
@[simp] theorem State.takeFault_fault (k : FaultKind) : (s.takeFault k).fault = some { kind := k, addr := s.pc } := (rfl)

end Sys2Proof.Machine
end

