-- ==== Sys2Proof/Laws/Ops.lean ====
section
/-! SUPPORT. One law per micro-operation: exactly when it answers a next state, and which.  Each is an equivalence, so
that rewriting with them lists everything an instruction can do; after them, the forward forms. -/

namespace Sys2Proof.Machine

variable {s t : State}

theorem raise_eq_next {k : FaultKind} : raise k s = .next t ↔ s.takeFault k = t := by simp [raise]

theorem goto_eq_next {a : Nat} : goto a s = .next t ↔ s.setPc (a % 2 ^ s.config.pcBits) = t := by
  simp [goto, Config.pcValue]

theorem advance_eq_next {m : Mnemonic} :
    advance m s = .next t ↔ s.setPc ((s.pc + m.length) % 2 ^ s.config.pcBits) = t := goto_eq_next

theorem popOr_eq_next {k : FaultKind} {f : Word → State → Result} :
    popOr k s f = .next t ↔
      (s.stack = [] ∧ s.takeFault k = t) ∨ ∃ S v, s.stack = S ++ [v] ∧ f v (s.setStack S) = .next t := by
  rcases List.eq_nil_or_concat' s.stack with h | ⟨S, v, h⟩
  · simp [popOr, h, raise_eq_next]
  · simp only [popOr, h, List.getLast?_concat, List.dropLast_concat]
    constructor
    · exact fun hf => .inr ⟨S, v, by simp, hf⟩
    · rintro (⟨hn, -⟩ | ⟨S', v', hs, hf⟩)
      · simp at hn
      · obtain ⟨rfl, rfl⟩ := List.append_singleton_inj.1 hs
        exact hf

theorem pop_eq_next {f : Word → State → Result} :
    pop s f = .next t ↔
      (s.stack = [] ∧ s.takeFault .stackUnderflow = t) ∨
        ∃ S v, s.stack = S ++ [v] ∧ f v (s.setStack S) = .next t := popOr_eq_next

theorem popArg_eq_next {name : ArgName} {f : Word → State → Result} :
    popArg name s f = .next t ↔
      (s.stack = [] ∧ s.takeFault (.interruptArgUnderflow name) = t) ∨
        ∃ S v, s.stack = S ++ [v] ∧ f v (s.setStack S) = .next t := popOr_eq_next

theorem readTop_eq_next {f : Word → Result} :
    readTop s f = .next t ↔
      (s.stack = [] ∧ s.takeFault .stackUnderflow = t) ∨ ∃ S v, s.stack = S ++ [v] ∧ f v = .next t := by
  rcases List.eq_nil_or_concat' s.stack with h | ⟨S, v, h⟩
  · simp [readTop, h, raise_eq_next]
  · simp only [readTop, h, List.getLast?_concat]
    constructor
    · exact fun hf => .inr ⟨S, v, by simp, hf⟩
    · rintro (⟨hn, -⟩ | ⟨S', v', hs, hf⟩)
      · simp at hn
      · obtain ⟨rfl, rfl⟩ := List.append_singleton_inj.1 hs
        exact hf

theorem readAt_eq_next {imm : Word} {f : Word → Result} :
    readAt imm s f = .next t ↔
      ((dupeIndex s.stack.length imm < 0 ∨ (s.stack.length : Int) ≤ dupeIndex s.stack.length imm) ∧
          s.takeFault (.stackIndexOutOfRange imm) = t) ∨
        ∃ v, 0 ≤ dupeIndex s.stack.length imm ∧ s.stack[(dupeIndex s.stack.length imm).toNat]? = some v ∧
          f v = .next t := by
  unfold readAt
  generalize dupeIndex s.stack.length imm = idx
  by_cases hneg : idx < 0
  · have : ¬ 0 ≤ idx := by omega
    simp [hneg, this, raise_eq_next]
  · rw [if_neg hneg]
    have h0 : 0 ≤ idx := by omega
    by_cases hge : (s.stack.length : Int) ≤ idx
    · have hn : s.stack[idx.toNat]? = none := List.getElem?_eq_none (by omega)
      simp [hn, hge, raise_eq_next]
    · have hlt : idx.toNat < s.stack.length := by omega
      simp [List.getElem?_eq_getElem hlt, hneg, hge, h0]

theorem push_eq_next {v : Word} {f : State → Result} :
    push v s f = .next t ↔
      (s.config.opStackMax = some s.stack.length ∧ s.takeFault .stackOverflow = t) ∨
        (s.config.opStackMax ≠ some s.stack.length ∧ f (s.setStack (s.stack ++ [v])) = .next t) := by
  unfold push; split <;> simp_all [raise_eq_next]

theorem csPush_eq_next {f : Frame} {g : State → Result} :
    csPush f s g = .next t ↔
      (s.config.callStackMax = some s.callStack.length ∧ s.takeFault .callStackOverflow = t) ∨
        (s.config.callStackMax ≠ some s.callStack.length ∧ g (s.setCallStack (s.callStack ++ [f])) = .next t) := by
  unfold csPush; split <;> simp_all [raise_eq_next]

theorem csPop_eq_next {g : Frame → State → Result} :
    csPop s g = .next t ↔
      (s.callStack = [] ∧ s.takeFault .returnWithEmptyCallStack = t) ∨
        ∃ C f, s.callStack = C ++ [f] ∧ g f (s.setCallStack C) = .next t := by
  rcases List.eq_nil_or_concat' s.callStack with h | ⟨S, v, h⟩
  · simp [csPop, h, raise_eq_next]
  · simp only [csPop, h, List.getLast?_concat, List.dropLast_concat]
    constructor
    · exact fun hf => .inr ⟨S, v, by simp, hf⟩
    · rintro (⟨hn, -⟩ | ⟨S', v', hs, hf⟩)
      · simp at hn
      · obtain ⟨rfl, rfl⟩ := List.append_singleton_inj.1 hs
        exact hf

theorem memRead_eq_next {addr : Word} {f : Byte → Result} :
    memRead addr s f = .next t ↔
      ((addr.toInt < 0 ∨ (memSize : Int) ≤ addr.toInt) ∧ s.takeFault (.memoryOutOfBounds addr) = t) ∨
        (0 ≤ addr.toInt ∧ addr.toInt < (memSize : Int) ∧ f (Sparse.read s.memory addr.toInt.toNat) = .next t) := by
  unfold memRead
  split
  · have : ¬ (0 ≤ addr.toInt ∧ addr.toInt < (memSize : Int)) := by omega
    simp_all [raise_eq_next]
  · have : 0 ≤ addr.toInt ∧ addr.toInt < (memSize : Int) := by omega
    simp [*]

theorem hasCell_iff {c : Config} {i : Int} : Config.hasCell c i = true ↔ 0 ≤ i ∧ i < (c.displayCells : Int) := by
  simp [Config.hasCell]

theorem dispWrite_eq_next {i : Int} {c : Pixel} {f : State → Result} :
    dispWrite i c s f = .next t ↔
      (Config.hasCell s.config i = false ∧ s.takeFault (.displayOutOfBounds i) = t) ∨
        (Config.hasCell s.config i = true ∧ f (s.setDisplay (Sparse.write s.display i.toNat c)) = .next t) := by
  unfold dispWrite; split <;> simp_all [raise_eq_next]

theorem memWrite_eq_next {addr : Word} {b : Byte} {f : State → Result} :
    memWrite addr b s f = .next t ↔
      (storeTarget addr = .outside ∧ s.takeFault (.memoryOutOfBounds addr) = t) ∨
        (∃ i, storeTarget addr = .cell i ∧ dispWrite i (broadcast b) s f = .next t) ∨
        ∃ a, storeTarget addr = .byte a ∧ f (s.setMemory (Sparse.write s.memory a b)) = .next t := by
  unfold memWrite; split <;> simp_all [raise_eq_next]

theorem arith_eq_next {n : Int} {f : Word → Result} :
    arith n s f = .next t ↔
      ((s.config.arithOverflow = .fault ∧ fitsI64 n = false) ∧ s.takeFault .arithmeticOverflow = t) ∨
        (¬ (s.config.arithOverflow = .fault ∧ fitsI64 n = false) ∧ f (wrap64 n) = .next t) := by
  unfold arith; split <;> simp_all [raise_eq_next]

theorem divide_eq_next {b a : Word} {f : Word → Result} :
    divide b a s f = .next t ↔
      (a = 0#64 ∧ s.takeFault .divisionByZero = t) ∨
        (a ≠ 0#64 ∧ (s.config.divOverflow = .fault ∧ divOverflows b a = true) ∧
          s.takeFault .divisionOverflow = t) ∨
        (a ≠ 0#64 ∧ ¬ (s.config.divOverflow = .fault ∧ divOverflows b a = true) ∧
          f (wrap64 (tdiv b.toInt a.toInt)) = .next t) := by
  unfold divide; split
  · simp_all [raise_eq_next]
  · split <;> simp_all [raise_eq_next]

/-- Where a store goes, by the value of the address (R62). -/
theorem storeTarget_cases (addr : Word) :
    (storeTarget addr = .outside ∧ (addr.toInt < 0 ∨ (memSize : Int) ≤ addr.toInt)) ∨
      (∃ i, storeTarget addr = .cell i ∧ addr.toInt = (displayBase + i : Nat) ∧ displayBase + i < displayLimit) ∨
      ∃ a, storeTarget addr = .byte a ∧ addr.toInt = (a : Nat) ∧ a < memSize ∧ ¬ (displayBase ≤ a ∧ a < displayLimit) := by
  by_cases h1 : addr.toInt < 0 ∨ (memSize : Int) ≤ addr.toInt
  · exact .inl ⟨if_pos h1, h1⟩
  · by_cases h2 : (displayBase : Int) ≤ addr.toInt ∧ addr.toInt < (displayLimit : Int)
    · refine .inr (.inl ⟨addr.toInt.toNat - displayBase, ?_, ?_, ?_⟩)
      · rw [storeTarget, if_neg h1, if_pos h2]
      all_goals simp only [memSize, displayBase, displayLimit] at *; omega
    · refine .inr (.inr ⟨addr.toInt.toNat, ?_, ?_, ?_, ?_⟩)
      · rw [storeTarget, if_neg h1, if_neg h2]
      all_goals simp only [memSize, displayBase, displayLimit] at *; omega

/-! Forward forms: what an operation passes on, given what it finds. -/

theorem popOr_concat {k : FaultKind} {f : Word → State → Result} {S : List Word} {v : Word} (h : s.stack = S ++ [v]) :
    popOr k s f = f v (s.setStack S) := by simp [popOr, h]

theorem pop_concat {f : Word → State → Result} {S : List Word} {v : Word} (h : s.stack = S ++ [v]) :
    pop s f = f v (s.setStack S) := popOr_concat h

theorem popArg_concat {name : ArgName} {f : Word → State → Result} {S : List Word} {v : Word}
    (h : s.stack = S ++ [v]) : popArg name s f = f v (s.setStack S) := popOr_concat h

theorem pop_nil {f : Word → State → Result} (h : s.stack = []) : pop s f = raise .stackUnderflow s := by
  simp [pop, popOr, h]

theorem popArg_nil {name : ArgName} {f : Word → State → Result} (h : s.stack = []) :
    popArg name s f = raise (.interruptArgUnderflow name) s := by simp [popArg, popOr, h]

theorem readTop_concat {f : Word → Result} {S : List Word} {v : Word} (h : s.stack = S ++ [v]) :
    readTop s f = f v := by simp [readTop, h]

theorem push_of_room {v : Word} {f : State → Result} (h : s.config.opStackMax ≠ some s.stack.length) :
    push v s f = f (s.setStack (s.stack ++ [v])) := by simp [push, h]

theorem csPop_concat {g : Frame → State → Result} {C : List Frame} {f : Frame} (h : s.callStack = C ++ [f]) :
    csPop s g = g f (s.setCallStack C) := by simp [csPop, h]

theorem csPush_of_room {f : Frame} {g : State → Result} (h : s.config.callStackMax ≠ some s.callStack.length) :
    csPush f s g = g (s.setCallStack (s.callStack ++ [f])) := by simp [csPush, h]

end Sys2Proof.Machine
end

