-- ==== Sys2Proof/Laws/Exec.lean ====
section
/-! SUPPORT. A meaning is a chain of micro-operations: `Post` walks the chain once for a property of the next state, and
`exec_answers` says that the chain always ends in one. -/

namespace Sys2Proof.Machine

/-! ## Capacities -/

theorem withinCapacity_ne_some {c : Option Nat} {n m : Nat} (h : withinCapacity c n) (hm : m < n) : c ≠ some m := by
  rintro rfl
  simp only [withinCapacity] at h
  omega

theorem withinCapacity_of_le {c : Option Nat} {n m : Nat} (h : withinCapacity c n) (hm : m ≤ n) :
    withinCapacity c m := by
  cases c with
  | none => trivial
  | some k => exact Nat.le_trans hm h

theorem withinCapacity_succ {c : Option Nat} {n : Nat} (h : withinCapacity c n) (hm : c ≠ some n) :
    withinCapacity c (n + 1) := by
  cases c with
  | none => trivial
  | some k => exact Nat.lt_of_le_of_ne h fun e => hm (by rw [e])

/-- A push after a pop always has room. -/
theorem push_after_pop {s s' : State} {v : Word} {f : State → Result}
    (hc : withinCapacity s.config.opStackMax s.stack.length) (hcfg : s'.config = s.config)
    (hl : s'.stack.length < s.stack.length) : push v s' f = f (s'.setStack (s'.stack ++ [v])) :=
  push_of_room (by rw [hcfg]; exact withinCapacity_ne_some hc hl)

/-! ## What holds of the next state -/

/-- Where the answer is a next state, `P` holds of it. -/
abbrev Post (P : State → Prop) (r : Result) : Prop := ∀ t, r = .next t → P t

section
variable {P : State → Prop} {s : State}

theorem post_raise {k : FaultKind} (h : P (s.takeFault k)) : Post P (raise k s) := by
  rintro _ ⟨⟩; exact h

theorem post_advance {m : Mnemonic} (h : P (s.setPc ((s.pc + m.length) % 2 ^ s.config.pcBits))) :
    Post P (advance m s) := by
  rintro _ ⟨⟩; exact h

theorem post_goto {a : Nat} (h : P (s.setPc (a % 2 ^ s.config.pcBits))) : Post P (goto a s) := by
  rintro _ ⟨⟩; exact h

theorem post_pop {f : Word → State → Result} (hf : P (s.takeFault .stackUnderflow))
    (hn : ∀ S v, s.stack = S ++ [v] → Post P (f v (s.setStack S))) : Post P (pop s f) := by
  intro t h
  rcases pop_eq_next.1 h with ⟨_, rfl⟩ | ⟨S, v, hs, h⟩
  · exact hf
  · exact hn S v hs t h

theorem post_popArg {name : ArgName} {f : Word → State → Result} (hf : P (s.takeFault (.interruptArgUnderflow name)))
    (hn : ∀ S v, s.stack = S ++ [v] → Post P (f v (s.setStack S))) : Post P (popArg name s f) := by
  intro t h
  rcases popArg_eq_next.1 h with ⟨_, rfl⟩ | ⟨S, v, hs, h⟩
  · exact hf
  · exact hn S v hs t h

theorem post_readTop {f : Word → Result} (hf : P (s.takeFault .stackUnderflow))
    (hn : ∀ S v, s.stack = S ++ [v] → Post P (f v)) : Post P (readTop s f) := by
  intro t h
  rcases readTop_eq_next.1 h with ⟨_, rfl⟩ | ⟨S, v, hs, h⟩
  · exact hf
  · exact hn S v hs t h

theorem post_readAt {imm : Word} {f : Word → Result} (hf : P (s.takeFault (.stackIndexOutOfRange imm)))
    (hn : ∀ v, Post P (f v)) : Post P (readAt imm s f) := by
  intro t h
  rcases readAt_eq_next.1 h with ⟨_, rfl⟩ | ⟨v, _, _, h⟩
  · exact hf
  · exact hn v t h

theorem post_push {v : Word} {f : State → Result}
    (hf : s.config.opStackMax = some s.stack.length → P (s.takeFault .stackOverflow))
    (hn : Post P (f (s.setStack (s.stack ++ [v])))) : Post P (push v s f) := by
  intro t h
  rcases push_eq_next.1 h with ⟨hc, rfl⟩ | ⟨_, h⟩
  · exact hf hc
  · exact hn t h

theorem post_csPush {v : Frame} {f : State → Result}
    (hf : s.config.callStackMax = some s.callStack.length → P (s.takeFault .callStackOverflow))
    (hn : Post P (f (s.setCallStack (s.callStack ++ [v])))) : Post P (csPush v s f) := by
  intro t h
  rcases csPush_eq_next.1 h with ⟨hc, rfl⟩ | ⟨_, h⟩
  · exact hf hc
  · exact hn t h

theorem post_csPop {f : Frame → State → Result} (hf : P (s.takeFault .returnWithEmptyCallStack))
    (hn : ∀ C v, s.callStack = C ++ [v] → Post P (f v (s.setCallStack C))) : Post P (csPop s f) := by
  intro t h
  rcases csPop_eq_next.1 h with ⟨_, rfl⟩ | ⟨C, v, hs, h⟩
  · exact hf
  · exact hn C v hs t h

theorem post_memRead {addr : Word} {f : Byte → Result} (hf : P (s.takeFault (.memoryOutOfBounds addr)))
    (hn : ∀ b, Post P (f b)) : Post P (memRead addr s f) := by
  intro t h
  rcases memRead_eq_next.1 h with ⟨_, rfl⟩ | ⟨_, _, h⟩
  · exact hf
  · exact hn _ t h

theorem post_dispWrite {i : Int} {c : Pixel} {f : State → Result} (hf : P (s.takeFault (.displayOutOfBounds i)))
    (hn : ∀ d, Post P (f (s.setDisplay d))) : Post P (dispWrite i c s f) := by
  intro t h
  rcases dispWrite_eq_next.1 h with ⟨_, rfl⟩ | ⟨_, h⟩
  · exact hf
  · exact hn _ t h

theorem post_memWrite {addr : Word} {b : Byte} {f : State → Result}
    (hm : P (s.takeFault (.memoryOutOfBounds addr))) (hd : ∀ j, P (s.takeFault (.displayOutOfBounds j)))
    (hc : ∀ d, Post P (f (s.setDisplay d))) (hb : ∀ m, Post P (f (s.setMemory m))) :
    Post P (memWrite addr b s f) := by
  intro t h
  rcases memWrite_eq_next.1 h with ⟨_, rfl⟩ | ⟨j, _, h⟩ | ⟨_, _, h⟩
  · exact hm
  · exact post_dispWrite (hd _) hc t h
  · exact hb _ t h

theorem post_arith {n : Int} {f : Word → Result}
    (hf : s.config.arithOverflow = .fault → P (s.takeFault .arithmeticOverflow)) (hn : ∀ v, Post P (f v)) :
    Post P (arith n s f) := by
  intro t h
  rcases arith_eq_next.1 h with ⟨hc, rfl⟩ | ⟨_, h⟩
  · exact hf hc.1
  · exact hn _ t h

theorem post_divide {b a : Word} {f : Word → Result} (hz : P (s.takeFault .divisionByZero))
    (ho : P (s.takeFault .divisionOverflow)) (hn : ∀ v, Post P (f v)) : Post P (divide b a s f) := by
  intro t h
  rcases divide_eq_next.1 h with ⟨_, rfl⟩ | ⟨_, _, rfl⟩ | ⟨_, _, h⟩
  · exact hz
  · exact ho
  · exact hn _ t h

end

/-! ## Every meaning answers a next state -/

/-- The answer is a next state. -/
abbrev Answers (r : Result) : Prop := ∃ t, r = .next t

section
variable {s : State}

theorem answers_advance {m : Mnemonic} : Answers (advance m s) := ⟨_, rfl⟩

theorem answers_popOr {k : FaultKind} {f : Word → State → Result} (h : ∀ v u, Answers (f v u)) :
    Answers (popOr k s f) := by
  unfold popOr
  split
  · exact ⟨_, rfl⟩
  · exact h _ _

theorem answers_pop {f : Word → State → Result} (h : ∀ v u, Answers (f v u)) : Answers (pop s f) := answers_popOr h

theorem answers_popArg {name : ArgName} {f : Word → State → Result} (h : ∀ v u, Answers (f v u)) :
    Answers (popArg name s f) := answers_popOr h

theorem answers_push {v : Word} {f : State → Result} (h : ∀ u, Answers (f u)) : Answers (push v s f) := by
  unfold push
  split
  · exact ⟨_, rfl⟩
  · exact h _

theorem answers_arith {n : Int} {f : Word → Result} (h : ∀ v, Answers (f v)) : Answers (arith n s f) := by
  unfold arith
  split
  · exact ⟨_, rfl⟩
  · exact h _

theorem answers_divide {b a : Word} {f : Word → Result} (h : ∀ v, Answers (f v)) : Answers (divide b a s f) := by
  unfold divide
  split
  · exact ⟨_, rfl⟩
  · split
    · exact ⟨_, rfl⟩
    · exact h _

theorem answers_memRead {addr : Word} {f : Byte → Result} (h : ∀ v, Answers (f v)) : Answers (memRead addr s f) := by
  unfold memRead
  split
  · exact ⟨_, rfl⟩
  · exact h _

theorem answers_dispWrite {i : Int} {c : Pixel} {f : State → Result} (h : ∀ u, Answers (f u)) :
    Answers (dispWrite i c s f) := by
  unfold dispWrite
  split
  · exact h _
  · exact ⟨_, rfl⟩

theorem answers_memWrite {addr : Word} {b : Byte} {f : State → Result} (h : ∀ u, Answers (f u)) :
    Answers (memWrite addr b s f) := by
  unfold memWrite
  split
  · exact ⟨_, rfl⟩
  · exact answers_dispWrite h
  · exact h _

theorem answers_readTop {f : Word → Result} (h : ∀ v, Answers (f v)) : Answers (readTop s f) := by
  unfold readTop
  split
  · exact ⟨_, rfl⟩
  · exact h _

theorem answers_readAt {imm : Word} {f : Word → Result} (h : ∀ v, Answers (f v)) : Answers (readAt imm s f) := by
  unfold readAt
  split
  · exact ⟨_, rfl⟩
  · split
    · exact ⟨_, rfl⟩
    · exact h _

theorem answers_csPush {v : Frame} {f : State → Result} (h : ∀ u, Answers (f u)) : Answers (csPush v s f) := by
  unfold csPush
  split
  · exact ⟨_, rfl⟩
  · exact h _

theorem answers_csPop {f : Frame → State → Result} (h : ∀ v u, Answers (f v u)) : Answers (csPop s f) := by
  unfold csPop
  split
  · exact ⟨_, rfl⟩
  · exact h _ _

end

/-- No meaning ends in a fault or a refusal. -/
theorem exec_answers (i : Instr) (s : State) : Answers (exec i s) := by
  cases i with
  | nop => exact answers_advance
  | halt => exact answers_advance
  | push imm =>
    simp only [exec, execPush]
    exact answers_push fun _ => answers_advance
  | pop =>
    simp only [exec, execPop]
    exact answers_pop fun _ _ => answers_advance
  | add =>
    simp only [exec, execAdd]
    exact answers_pop fun _ _ => answers_pop fun _ _ => answers_arith fun _ => answers_push fun _ => answers_advance
  | mul =>
    simp only [exec, execMul]
    exact answers_pop fun _ _ => answers_pop fun _ _ => answers_arith fun _ => answers_push fun _ => answers_advance
  | sub =>
    simp only [exec, execSub]
    exact answers_pop fun _ _ => answers_pop fun _ _ => answers_arith fun _ => answers_push fun _ => answers_advance
  | div =>
    simp only [exec, execDiv]
    exact answers_pop fun _ _ => answers_pop fun _ _ => answers_divide fun _ => answers_push fun _ => answers_advance
  | jump =>
    simp only [exec, execJump]
    exact answers_pop fun _ _ => ⟨_, rfl⟩
  | loadU8 =>
    simp only [exec, execLoadU8]
    exact answers_pop fun _ _ => answers_memRead fun _ => answers_push fun _ => answers_advance
  | storeU8 =>
    simp only [exec, execStoreU8]
    exact answers_pop fun _ _ => answers_pop fun _ _ => answers_memWrite fun _ => answers_advance
  | swap =>
    simp only [exec, execSwap]
    exact answers_pop fun _ _ => answers_pop fun _ _ => answers_push fun _ => answers_push fun _ => answers_advance
  | dupe =>
    simp only [exec, execDupe]
    exact answers_readTop fun _ => answers_push fun _ => answers_advance
  | dupeAt imm =>
    simp only [exec, execDupeAt]
    exact answers_readAt fun _ => answers_push fun _ => answers_advance
  | interrupt code =>
    simp only [exec, execInterrupt]
    split
    · exact answers_popArg fun _ _ => answers_popArg fun _ _ => answers_dispWrite fun _ => answers_advance
    · split
      · exact answers_popArg fun _ _ => answers_popArg fun _ _ => answers_popArg fun _ _ =>
          answers_dispWrite fun _ => answers_advance
      · exact ⟨_, rfl⟩
  | call =>
    simp only [exec, execCall]
    exact answers_pop fun _ _ => answers_csPush fun _ => ⟨_, rfl⟩
  | ret =>
    simp only [exec, execRet]
    exact answers_csPop fun _ _ => ⟨_, rfl⟩

/-- No meaning leaves the program counter wider than `PC_BITS`: `goto` alone writes it. -/
theorem exec_pcFits (i : Instr) {s t : State} (hs : s.pc < 2 ^ s.config.pcBits) (h : exec i s = .next t) :
    t.pc < 2 ^ t.config.pcBits := by
  have fits (c : Config) (n : Nat) : n % 2 ^ c.pcBits < 2 ^ c.pcBits := Nat.mod_lt _ (Nat.two_pow_pos _)
  suffices Post (fun t => t.pc < 2 ^ t.config.pcBits) (exec i s) from this t h
  cases i with
  | nop =>
    simp only [exec, execNop]
    exact post_advance (fits _ _)
  | halt =>
    simp only [exec, execHalt]
    exact post_advance (fits _ _)
  | push imm =>
    simp only [exec, execPush]
    exact post_push (fun _ => hs) (post_advance (fits _ _))
  | pop =>
    simp only [exec, execPop]
    exact post_pop hs fun _ _ _ => post_advance (fits _ _)
  | add =>
    simp only [exec, execAdd]
    exact post_pop hs fun _ _ _ => post_pop hs fun _ _ _ =>
      post_arith (fun _ => hs) fun _ => post_push (fun _ => hs) (post_advance (fits _ _))
  | mul =>
    simp only [exec, execMul]
    exact post_pop hs fun _ _ _ => post_pop hs fun _ _ _ =>
      post_arith (fun _ => hs) fun _ => post_push (fun _ => hs) (post_advance (fits _ _))
  | sub =>
    simp only [exec, execSub]
    exact post_pop hs fun _ _ _ => post_pop hs fun _ _ _ =>
      post_arith (fun _ => hs) fun _ => post_push (fun _ => hs) (post_advance (fits _ _))
  | div =>
    simp only [exec, execDiv]
    exact post_pop hs fun _ _ _ => post_pop hs fun _ _ _ =>
      post_divide hs hs fun _ => post_push (fun _ => hs) (post_advance (fits _ _))
  | jump =>
    simp only [exec, execJump]
    exact post_pop hs fun _ _ _ => post_goto (fits _ _)
  | loadU8 =>
    simp only [exec, execLoadU8]
    exact post_pop hs fun _ _ _ => post_memRead hs fun _ => post_push (fun _ => hs) (post_advance (fits _ _))
  | storeU8 =>
    simp only [exec, execStoreU8]
    exact post_pop hs fun _ _ _ => post_pop hs fun _ _ _ =>
      post_memWrite hs (fun _ => hs) (fun _ => post_advance (fits _ _)) (fun _ => post_advance (fits _ _))
  | swap =>
    simp only [exec, execSwap]
    exact post_pop hs fun _ _ _ => post_pop hs fun _ _ _ =>
      post_push (fun _ => hs) (post_push (fun _ => hs) (post_advance (fits _ _)))
  | dupe =>
    simp only [exec, execDupe]
    exact post_readTop hs fun _ _ _ => post_push (fun _ => hs) (post_advance (fits _ _))
  | dupeAt imm =>
    simp only [exec, execDupeAt]
    exact post_readAt hs fun _ => post_push (fun _ => hs) (post_advance (fits _ _))
  | interrupt code =>
    simp only [exec, execInterrupt]
    split
    · exact post_popArg hs fun _ _ _ => post_popArg hs fun _ _ _ =>
        post_dispWrite hs fun _ => post_advance (fits _ _)
    · split
      · exact post_popArg hs fun _ _ _ => post_popArg hs fun _ _ _ => post_popArg hs fun _ _ _ =>
          post_dispWrite hs fun _ => post_advance (fits _ _)
      · exact post_raise hs
  | call =>
    simp only [exec, execCall]
    exact post_pop hs fun _ _ _ => post_csPush (fun _ => hs) (post_goto (fits _ _))
  | ret =>
    simp only [exec, execRet]
    exact post_csPop hs fun _ _ _ => post_goto (fits _ _)

end Sys2Proof.Machine
end

