-- ==== Sys2Proof/Laws/PerInstr.lean ====
section
/-! SUPPORT. Statements about every instruction as syntax, one lemma per constructor. -/

namespace Sys2Proof.Laws.EncodedLength

/-- An instruction's encoding has the length of its format (R82), whatever the opcode map and the immediate. -/
def Statement (i : Instr) : Prop := ∀ map : OpcodeMap, (encode map i).length = i.mnemonic.length

theorem of_any (i : Instr) : Statement i := fun map => by
  simp [encode, Mnemonic.length, Nat.add_comm]

theorem nop : Statement .nop := of_any _
theorem halt : Statement .halt := of_any _
theorem push (imm : Word) : Statement (.push imm) := of_any _
theorem pop : Statement .pop := of_any _
theorem add : Statement .add := of_any _
theorem mul : Statement .mul := of_any _
theorem sub : Statement .sub := of_any _
theorem div : Statement .div := of_any _
theorem jump : Statement .jump := of_any _
theorem loadU8 : Statement .loadU8 := of_any _
theorem storeU8 : Statement .storeU8 := of_any _
theorem swap : Statement .swap := of_any _
theorem dupe : Statement .dupe := of_any _
theorem dupeAt (imm : Word) : Statement (.dupeAt imm) := of_any _
theorem interrupt (code : Byte) : Statement (.interrupt code) := of_any _
theorem call : Statement .call := of_any _
theorem ret : Statement .ret := of_any _

end Sys2Proof.Laws.EncodedLength
end

