-- ==== Sys2Proof/Laws/Sparse.lean ====
section
/-! SUPPORT. Memory and display contents: a read after a write, and the canonical form kept. -/

namespace Sys2Proof.Machine

variable {w : Nat}

@[simp] theorem Sparse.read_nil (a : Nat) : Sparse.read ([] : Sparse w) a = 0#w := rfl

theorem Sparse.read_cons (k : Nat) (x : BitVec w) (m : Sparse w) (a : Nat) :
    Sparse.read ((k, x) :: m) a = if a = k then x else Sparse.read m a := rfl

/-- Below every listed index there is only 0. -/
theorem Sparse.read_of_lt {m : Sparse w} {a : Nat} (h : ∀ c ∈ m, a < c.1) : Sparse.read m a = 0#w := by
  induction m with
  | nil => rfl
  | cons c m ih =>
    obtain ⟨k, x⟩ := c
    have hne : a ≠ k := Nat.ne_of_lt (h (k, x) (by simp))
    simp only [Sparse.read_cons, if_neg hne]
    exact ih fun d hd => h d (by simp [hd])

theorem Sparse.wf_cons {bound k : Nat} {x : BitVec w} {m : Sparse w} :
    Sparse.wf bound ((k, x) :: m) ↔ (∀ c ∈ m, k < c.1) ∧ x ≠ 0#w ∧ k < bound ∧ Sparse.wf bound m := by
  simp only [Sparse.wf, List.pairwise_cons, List.forall_mem_cons]
  tauto

theorem Sparse.wf_nil (bound : Nat) : Sparse.wf bound ([] : Sparse w) := by simp [Sparse.wf]

/-- A read of a put cell, or of one after it. -/
theorem Sparse.read_put {m : Sparse w} {a : Nat} (v : BitVec w) (b : Nat) (h : ∀ c ∈ m, a < c.1) :
    Sparse.read (Sparse.put a v m) b = if b = a then v else Sparse.read m b := by
  unfold Sparse.put
  split
  · split
    · subst_vars; exact Sparse.read_of_lt h
    · rfl
  · rfl

theorem Sparse.wf_put {bound a : Nat} {v : BitVec w} {m : Sparse w} (hm : Sparse.wf bound m)
    (h : ∀ c ∈ m, a < c.1) (ha : a < bound) : Sparse.wf bound (Sparse.put a v m) := by
  unfold Sparse.put
  split
  · exact hm
  · exact Sparse.wf_cons.2 ⟨h, ‹_›, ha, hm⟩

theorem Sparse.mem_put {a : Nat} {v : BitVec w} {m : Sparse w} {c : Nat × BitVec w}
    (h : c ∈ Sparse.put a v m) : c.1 = a ∨ c ∈ m := by
  unfold Sparse.put at h
  split at h
  · exact .inr h
  · rcases List.mem_cons.1 h with rfl | h
    · exact .inl rfl
    · exact .inr h

/-- A written memory lists no index but those it listed and the one written. -/
theorem Sparse.mem_write {m : Sparse w} {a : Nat} {v : BitVec w} {c : Nat × BitVec w}
    (h : c ∈ Sparse.write m a v) : c.1 = a ∨ c ∈ m := by
  induction m with
  | nil => exact Sparse.mem_put h
  | cons d m ih =>
    obtain ⟨k, x⟩ := d
    simp only [Sparse.write] at h
    split at h
    · exact Sparse.mem_put h
    · split at h
      · exact (Sparse.mem_put h).imp_right fun h => by simp [h]
      · rcases List.mem_cons.1 h with rfl | h
        · exact .inr (by simp)
        · exact (ih h).imp_right fun h => by simp [h]

/-- A write keeps the canonical form. -/
theorem Sparse.wf_write {bound a : Nat} {v : BitVec w} {m : Sparse w} (hm : Sparse.wf bound m) (ha : a < bound) :
    Sparse.wf bound (Sparse.write m a v) := by
  induction m with
  | nil => exact Sparse.wf_put (Sparse.wf_nil bound) (by simp) ha
  | cons d m ih =>
    obtain ⟨k, x⟩ := d
    obtain ⟨hlt, hx, hk, hm'⟩ := Sparse.wf_cons.1 hm
    simp only [Sparse.write]
    split
    · refine Sparse.wf_put hm (fun c hc => ?_) ha
      rcases List.mem_cons.1 hc with rfl | hc
      · assumption
      · exact Nat.lt_trans ‹_› (hlt c hc)
    · split
      · subst_vars; exact Sparse.wf_put hm' hlt ha
      · refine Sparse.wf_cons.2 ⟨fun c hc => ?_, hx, hk, ih hm'⟩
        rcases Sparse.mem_write hc with h | h
        · omega
        · exact hlt c h

/-- A read after a write: the value written there, elsewhere the value before. -/
theorem Sparse.read_write {bound : Nat} {m : Sparse w} (hm : Sparse.wf bound m) (a : Nat) (v : BitVec w) (b : Nat) :
    Sparse.read (Sparse.write m a v) b = if b = a then v else Sparse.read m b := by
  induction m with
  | nil => exact Sparse.read_put v b (by simp)
  | cons d m ih =>
    obtain ⟨k, x⟩ := d
    obtain ⟨hlt, -, -, hm'⟩ := Sparse.wf_cons.1 hm
    simp only [Sparse.write]
    split
    · refine Sparse.read_put v b fun c hc => ?_
      rcases List.mem_cons.1 hc with rfl | hc
      · assumption
      · exact Nat.lt_trans ‹_› (hlt c hc)
    · split
      · subst_vars
        simp only [Sparse.read_cons, Sparse.read_put v b hlt]
        split <;> simp_all
      · simp only [Sparse.read_cons, ih hm']
        split <;> split <;> simp_all

/-- Reading elsewhere than the index written needs no canonical form. -/
theorem Sparse.read_write_ne {m : Sparse w} {a b : Nat} (v : BitVec w) (h : b ≠ a) :
    Sparse.read (Sparse.write m a v) b = Sparse.read m b := by
  have hput : ∀ m : Sparse w, Sparse.read (Sparse.put a v m) b = Sparse.read m b := fun m => by
    unfold Sparse.put
    split
    · rfl
    · exact if_neg h
  induction m with
  | nil => exact hput []
  | cons d m ih =>
    obtain ⟨k, x⟩ := d
    simp only [Sparse.write]
    split
    · exact hput _
    · split
      · rw [hput, Sparse.read_cons, if_neg (by omega)]
      · simp only [Sparse.read_cons, ih]

/-- The canonical form holds what can be read and nothing else: the least listed index is the first that reads other
than 0. -/
theorem Sparse.read_ne_zero_iff {bound : Nat} {m : Sparse w} (hm : Sparse.wf bound m) (a : Nat) :
    Sparse.read m a ≠ 0#w ↔ ∃ c ∈ m, c.1 = a := by
  induction m with
  | nil => simp
  | cons d m ih =>
    obtain ⟨k, x⟩ := d
    obtain ⟨-, hx, -, hm'⟩ := Sparse.wf_cons.1 hm
    rw [Sparse.read_cons]
    split
    · subst_vars; exact ⟨fun _ => ⟨(k, x), by simp⟩, fun _ => hx⟩
    · rw [ih hm']
      constructor
      · rintro ⟨c, hc, rfl⟩; exact ⟨c, by simp [hc], rfl⟩
      · rintro ⟨c, hc, rfl⟩
        rcases List.mem_cons.1 hc with rfl | hc
        · exact absurd rfl ‹_›
        · exact ⟨c, hc, rfl⟩

/-- In the canonical form an index past the bound reads 0. -/
theorem Sparse.read_eq_zero_of_ge {bound : Nat} {m : Sparse w} (hm : Sparse.wf bound m) {a : Nat} (h : bound ≤ a) :
    Sparse.read m a = 0#w := by
  by_contra hne
  obtain ⟨c, hc, rfl⟩ := (Sparse.read_ne_zero_iff hm a).1 hne
  have := (hm.2 c hc).2
  omega

/-- Writing bytes from an address on keeps the canonical form. -/
theorem writeBytes_wf (bs : List Byte) {m : Memory} (a : Nat) (hm : Memory.wf m) : Memory.wf (writeBytes m a bs) := by
  induction bs generalizing m a with
  | nil => exact hm
  | cons b bs ih =>
    refine ih (a + 1) ?_
    split
    · exact Sparse.wf_write hm ‹_›
    · exact hm

/-- Written bytes read back where they were written, and every other address reads as before. -/
theorem read_writeBytes (bs : List Byte) {m : Memory} (a : Nat) (hm : Memory.wf m) (hfit : a + bs.length ≤ memSize)
    (c : Nat) : Sparse.read (writeBytes m a bs) c =
      if a ≤ c then (bs[c - a]?).getD (Sparse.read m c) else Sparse.read m c := by
  induction bs generalizing m a with
  | nil => simp [writeBytes]
  | cons b bs ih =>
    simp only [List.length_cons] at hfit
    have ha : a < memSize := by omega
    rw [writeBytes, if_pos ha, ih (a + 1) (Sparse.wf_write hm ha) (by omega), Sparse.read_write hm]
    by_cases h1 : a + 1 ≤ c
    · rw [if_pos h1, if_neg (by omega), if_pos (by omega)]
      obtain ⟨k, rfl⟩ : ∃ k, c = a + 1 + k := ⟨c - (a + 1), by omega⟩
      rw [show a + 1 + k - a = k + 1 by omega, show a + 1 + k - (a + 1) = k by omega, List.getElem?_cons_succ]
    · rw [if_neg h1]
      by_cases h2 : c = a
      · simp [h2]
      · rw [if_neg h2, if_neg (by omega)]

end Sys2Proof.Machine
end

