-- ==== Sys2Proof/Laws/Step.lean ====
section
/-! SUPPORT. What a step can do: every way it answers, once. -/

namespace Sys2Proof.Machine

variable {s t : State}

theorem stepReady_iff : s.stepReady = true ↔ s.fault = none ∧ s.paused = false := by
  simp [State.stepReady]

/-- A step answers a next state exactly when the engine is ready and the fetched instruction, or the fault of its
fetch, gives that state. -/
theorem step_eq_next :
    step s = .next t ↔
      s.stepReady = true ∧ ((∃ i, fetch s = .ok i ∧ exec i s = .next t) ∨
        ∃ k, fetch s = .error k ∧ s.takeFault k = t) := by
  unfold step
  by_cases h : s.stepReady = true
  · rw [if_pos h]
    cases hf : fetch s with
    | ok i => simp [h]
    | error k => simp [h, raise_eq_next]
  · rw [if_neg h]
    simp only [h, Bool.false_eq_true, false_and, iff_false]
    unfold notReady
    split <;> simp

/-- The number of bytes a fetch may read. -/
@[simp] theorem readBytes_length (m : Memory) (a n : Nat) : (readBytes m a n).length = n := by
  induction n generalizing a with
  | zero => rfl
  | succ n ih => simp [readBytes, ih]

/-- The bytes a fetch reads are the bytes of memory. -/
theorem readBytes_getElem? (m : Memory) (a n k : Nat) (h : k < n) :
    (readBytes m a n)[k]? = some (Sparse.read m (a + k)) := by
  induction n generalizing a k with
  | zero => omega
  | succ n ih =>
    cases k with
    | zero => simp [readBytes]
    | succ k => simp only [readBytes, List.getElem?_cons_succ]; rw [ih (a + 1) k (by omega)]; congr 2; omega

theorem fetchBytes_length : s.fetchBytes.length = min maxInstrBytes (memSize - s.pc) := by
  simp [State.fetchBytes]

/-- A program counter in memory gives a fetch its opcode byte. -/
theorem fetchBytes_cons (h : s.pc < memSize) : ∃ rest, s.fetchBytes = Sparse.read s.memory s.pc :: rest := by
  unfold State.fetchBytes
  obtain ⟨n, hn⟩ : ∃ n, min maxInstrBytes (memSize - s.pc) = n + 1 :=
    ⟨min maxInstrBytes (memSize - s.pc) - 1, by simp only [maxInstrBytes]; omega⟩
  rw [hn]
  exact ⟨_, rfl⟩

/-- A fetched instruction stands in memory. -/
theorem pc_lt_of_fetch {i : Instr} (h : fetch s = .ok i) : s.pc < memSize := by
  by_contra hge
  have : s.fetchBytes = [] := List.length_eq_zero_iff.1 (by rw [fetchBytes_length]; omega)
  simp [fetch, this, decode] at h

end Sys2Proof.Machine
end

