-- ==== Sys2Proof/Tests/Slice0.lean ====
section
/-! SUPPORT. Tests.  Expected values come from the spec: the vectors T<n>, S<n> and programs P<n> of
spec/95_test_vectors.md, and the encodings of spec/30_encoding.md.  After them, for every statement with hypotheses, a
witness: concrete data that meets all of them. -/

namespace Sys2Proof.Tests

open Sys2Proof Sys2Proof.Machine

/-! ## Helpers -/

/-- The state after reset with an operand stack, bottom first. -/
def on (S : List Word) : State := { State.reset with stack := S }

/-- The state after a construction with `image`, with an operand stack. -/
def program (image : List Byte) (S : List Word) : State :=
  { State.reset with memory := writeBytes [] 0 image, stack := S }

/-- The next state, where there is one. -/
def nextOf (r : Result) : Option State :=
  match r with
  | .next t => some t
  | .fault _ => none
  | .refused _ => none

theorem eq_next_of_nextOf {r : Result} {t : State} (h : nextOf r = some t) : r = .next t := by
  cases r <;> simp_all [nextOf]

/-- The operand stack, `pc` and the fault latch after one step. -/
def after (s : State) : Option (List Word × Nat × Option FaultRecord) :=
  (nextOf (step s)).map fun t => (t.stack, t.pc, t.fault)

/-- A state with a display of another size, all parameters at their defaults. -/
def sized (w h : Nat) (s : State) : State := { s with config := configFor w h }

theorem inv_of_plain {s : State} (hm : Memory.wf s.memory) (hd : Sparse.wf s.config.displayCells s.display)
    (hp : s.pc < 2 ^ s.config.pcBits)
    (hc : s.callStack = []) (hf : s.fault = none) (h1 : s.config.opStackMax = none)
    (h2 : s.config.callStackMax = none) : s.Inv where
  memory := hm
  display := hd
  frames := by simp [hc]
  pcFits := hp
  faultAddr := by simp [hf]
  stackFits := by simp [withinCapacity, h1]
  callStackFits := by simp [withinCapacity, h2]

/-! ## Well-formedness: one term that each check refuses -/

theorem test_smoke_map_with_a_mnemonic_twice :
    ¬ OpcodeMap.wf [.nop, .nop, .push, .pop, .add, .mul, .sub, .div, .jump, .loadU8, .storeU8, .swap, .dupe, .dupeAt,
      .interrupt, .call, .ret] := by decide

theorem test_smoke_map_without_ret :
    ¬ OpcodeMap.wf [.nop, .halt, .push, .pop, .add, .mul, .sub, .div, .jump, .loadU8, .storeU8, .swap, .dupe, .dupeAt,
      .interrupt, .call] := by decide

theorem test_smoke_instruction_without_an_opcode : ¬ Instr.wf [.nop, .halt] (.push 5#64) := by decide

/-- T62: an image of 65,537 bytes does not fit. -/
theorem test_smoke_image_too_long : ¬ imageFits memSize (List.replicate 65537 0#8) := by
  unfold imageFits memSize
  rw [List.length_replicate]
  decide

theorem test_smoke_cells_out_of_order : ¬ Memory.wf [(2, 1#8), (1, 1#8)] := by decide

theorem test_smoke_listed_zero_cell : ¬ Memory.wf [(2, 0#8)] := by decide

theorem test_smoke_cell_beyond_memory : ¬ Memory.wf [(65536, 1#8)] := by decide

/-! ## Decoding: the words of R85 and R90, written out bit by bit (T1 to T6) -/

theorem test_decode_nop : decode defaultOpcodeMap [0b00000000#8] = .ok (.nop, []) := by rfl
theorem test_decode_halt : decode defaultOpcodeMap [0b00000001#8] = .ok (.halt, []) := by rfl
/-- T3, the immediate 0x0102030405060708. -/
theorem test_decode_push :
    decode defaultOpcodeMap [0b00000010#8, 0b00001000#8, 0b00000111#8, 0b00000110#8, 0b00000101#8, 0b00000100#8,
      0b00000011#8, 0b00000010#8, 0b00000001#8] = .ok (.push 0x0102030405060708#64, []) := by rfl
/-- T2, the immediates -2^63 and -1. -/
theorem test_decode_push_least :
    decode defaultOpcodeMap [0x02#8, 0#8, 0#8, 0#8, 0#8, 0#8, 0#8, 0#8, 0x80#8] =
      .ok (.push (BitVec.ofInt 64 (-(2 ^ 63))), []) := by rfl
theorem test_decode_push_minus_one :
    decode defaultOpcodeMap [0x02#8, 0xFF#8, 0xFF#8, 0xFF#8, 0xFF#8, 0xFF#8, 0xFF#8, 0xFF#8, 0xFF#8] =
      .ok (.push (-1#64), []) := by rfl
theorem test_decode_pop : decode defaultOpcodeMap [0b00000011#8] = .ok (.pop, []) := by rfl
theorem test_decode_add : decode defaultOpcodeMap [0b00000100#8] = .ok (.add, []) := by rfl
theorem test_decode_mul : decode defaultOpcodeMap [0b00000101#8] = .ok (.mul, []) := by rfl
theorem test_decode_sub : decode defaultOpcodeMap [0b00000110#8] = .ok (.sub, []) := by rfl
theorem test_decode_div : decode defaultOpcodeMap [0b00000111#8] = .ok (.div, []) := by rfl
theorem test_decode_jump : decode defaultOpcodeMap [0b00001000#8] = .ok (.jump, []) := by rfl
theorem test_decode_loadU8 : decode defaultOpcodeMap [0b00001001#8] = .ok (.loadU8, []) := by rfl
theorem test_decode_storeU8 : decode defaultOpcodeMap [0b00001010#8] = .ok (.storeU8, []) := by rfl
theorem test_decode_swap : decode defaultOpcodeMap [0b00001011#8] = .ok (.swap, []) := by rfl
theorem test_decode_dupe : decode defaultOpcodeMap [0b00001100#8] = .ok (.dupe, []) := by rfl
/-- T4. -/
theorem test_decode_dupeAt :
    decode defaultOpcodeMap [0b00001101#8, 0b00000011#8, 0#8, 0#8, 0#8, 0#8, 0#8, 0#8, 0#8] =
      .ok (.dupeAt 3#64, []) := by rfl
/-- T5, with a byte after it. -/
theorem test_decode_interrupt :
    decode defaultOpcodeMap [0b00001110#8, 0b11111111#8, 0x01#8] = .ok (.interrupt 255#8, [0x01#8]) := by rfl
theorem test_decode_call : decode defaultOpcodeMap [0b00001111#8] = .ok (.call, []) := by rfl
theorem test_decode_ret : decode defaultOpcodeMap [0b00010000#8] = .ok (.ret, []) := by rfl
theorem test_decode_illegal : decode defaultOpcodeMap [0b00010001#8] = .error (.invalidOpcode 0x11#8) := by rfl
theorem test_decode_illegal_last : decode defaultOpcodeMap [0xFF#8] = .error (.invalidOpcode 0xFF#8) := by rfl
theorem test_decode_cut_short : decode defaultOpcodeMap [0x0E#8] = .error .noImmediate := by rfl
theorem test_encode_push :
    encode defaultOpcodeMap (.push 0x0102030405060708#64) =
      [0x02#8, 0x08#8, 0x07#8, 0x06#8, 0x05#8, 0x04#8, 0x03#8, 0x02#8, 0x01#8] := by decide
theorem test_encode_ret : encode defaultOpcodeMap .ret = [0x10#8] := by decide

/-- The opcode table's numbering: bit 0 is the least significant bit of the first byte. -/
theorem test_table_word_push : decodeTableWord 72 0x010203040506070802 = some (.push 0x0102030405060708#64) := by rfl
theorem test_table_word_interrupt : decodeTableWord 16 0x010E = some (.interrupt 1#8) := by rfl
theorem test_table_word_illegal : decodeTableWord 8 0x11 = none := by rfl

/-! ## Steps -/

theorem test_reset_is_the_construction_with_no_image : construct defaultConfig [] = some State.reset := by rfl

/-- T60. -/
theorem test_step_push_with_zero_headroom :
    after (program [0x02#8, 0x05#8] []) = some ([5#64], 9, none) := by decide
theorem test_step_fetch_word :
    after (State.reset.withFetchWord 72 0x010203040506070802) = some ([0x0102030405060708#64], 9, none) := by decide
/-- T12, T13. -/
theorem test_step_halt :
    (nextOf (step (program [0x01#8] []))).map (fun t => (t.pc, t.paused)) = some (1, true) := by decide
theorem test_stop_before_the_step : serve .step (State.stop (program [0x01#8] [])) = (.refused, State.stop (program [0x01#8] [])) := by
  decide
/-- T11. -/
theorem test_step_nop : after (program [0x00#8] [7#64]) = some ([7#64], 1, none) := by decide
/-- T8. -/
theorem test_step_illegal : after (program [0x11#8] []) = some ([], 0, some ⟨.invalidInstruction 0x11#8, 0⟩) := by decide
/-- T7. -/
theorem test_step_past_memory :
    after { State.reset with pc := 0x10000 } = some ([], 0x10000, some ⟨.pcOutOfBounds, 0x10000⟩) := by decide
/-- T9. -/
theorem test_step_immediate_past_memory :
    after { State.reset with memory := [(0xFFF8, 0x02#8)], pc := 0xFFF8 } =
      some ([], 0xFFF8, some ⟨.pcOutOfBounds, 0xFFF8⟩) := by decide
theorem test_step_immediate_at_the_end :
    after { State.reset with memory := [(0xFFF7, 0x02#8), (0xFFFF, 0x80#8)], pc := 0xFFF7 } =
      some ([0x8000000000000000#64], 0x10000, none) := by decide
/-- S5, P7. -/
theorem test_step_pop_underflow : after (program [0x03#8, 0x01#8] []) = some ([], 0, some ⟨.stackUnderflow, 0⟩) := by decide
/-- T14. -/
theorem test_step_pop : after (program [0x03#8] [-1#64, 0#64]) = some ([-1#64], 1, none) := by decide
/-- T15, T16. -/
theorem test_step_swap : after (program [0x0B#8] [1#64, 2#64]) = some ([2#64, 1#64], 1, none) := by decide
theorem test_step_swap_underflow : after (program [0x0B#8] [9#64]) = some ([], 0, some ⟨.stackUnderflow, 0⟩) := by decide
/-- T17. -/
theorem test_step_dupe : after (program [0x0C#8] [4#64, 9#64]) = some ([4#64, 9#64, 9#64], 1, none) := by decide
/-- T18. -/
theorem test_step_dupeAt :
    after (program [0x0D#8, 0x03#8] [10#64, 20#64, 30#64]) = some ([10#64, 20#64, 30#64, 10#64], 9, none) := by decide
theorem test_step_dupeAt_too_deep :
    after (program [0x0D#8, 0x04#8] [10#64, 20#64, 30#64]) =
      some ([10#64, 20#64, 30#64], 0, some ⟨.stackIndexOutOfRange 4#64, 0⟩) := by decide
/-- T46. -/
theorem test_step_add : after (program [0x04#8] [100#64, 5#64, 3#64]) = some ([100#64, 8#64], 1, none) := by decide
/-- T40. -/
theorem test_step_add_wraps :
    after (program [0x04#8] [0x7FFFFFFFFFFFFFFF#64, 1#64]) = some ([0x8000000000000000#64], 1, none) := by decide
/-- T41. -/
theorem test_step_mul : after (program [0x05#8] [-3#64, 4#64]) = some ([-12#64], 1, none) := by decide
theorem test_step_mul_wraps : after (program [0x05#8] [0x100000000#64, 0x100000000#64]) = some ([0#64], 1, none) := by decide
/-- T42: top minus next. -/
theorem test_step_sub : after (program [0x06#8] [10#64, 3#64]) = some ([-7#64], 1, none) := by decide
theorem test_step_sub_wraps :
    after (program [0x06#8] [1#64, 0x8000000000000000#64]) = some ([0x7FFFFFFFFFFFFFFF#64], 1, none) := by decide
/-- T43: top divided by next, toward zero. -/
theorem test_step_div : after (program [0x07#8] [2#64, -7#64]) = some ([-3#64], 1, none) := by decide
/-- T44. -/
theorem test_step_div_overflow :
    after (program [0x07#8] [-1#64, 0x8000000000000000#64]) = some ([], 0, some ⟨.divisionOverflow, 0⟩) := by decide
/-- T20, T22. -/
theorem test_step_jump : after (program [0x08#8] [11#64]) = some ([], 11, none) := by decide
theorem test_step_jump_negative : after (program [0x08#8] [-5#64]) = some ([], 0, none) := by decide
/-- D3's wording: a counter narrower than 64 bits would have an out-of-range target truncated into range. -/
theorem test_step_jump_narrow_counter :
    after { program [0x08#8] [0x10005#64] with config := { defaultConfig with pcBits := 16 } } =
      some ([], 5, none) := by decide
/-- T25: no clamp; the frame holds the `Call`'s own address. -/
theorem test_step_call_negative :
    (nextOf (step { program [] [-1#64] with memory := [(9, 0x0F#8)], pc := 9 })).map (fun t => (t.callStack, t.pc)) =
      some ([⟨9⟩], 0xFFFFFFFFFFFFFFFF) := by decide
/-- P2, step 4: back to the byte after the `Call` at 9. -/
theorem test_step_ret :
    (nextOf (step { program [0x10#8] [7#64] with callStack := [⟨9⟩] })).map (fun t => (t.callStack, t.stack, t.pc)) =
      some ([], [7#64], 10) := by decide
/-- T26. -/
theorem test_step_ret_empty : after (program [0x10#8] []) = some ([], 0, some ⟨.returnWithEmptyCallStack, 0⟩) := by decide
/-- T32. -/
theorem test_step_loadU8 :
    after { program [] [0x200#64] with memory := [(0, 0x09#8), (0x200, 0xFF#8)] } = some ([255#64], 1, none) := by decide
/-- T35. -/
theorem test_step_loadU8_outside :
    after (program [0x09#8] [65536#64]) = some ([], 0, some ⟨.memoryOutOfBounds 65536#64, 0⟩) := by decide
/-- T30. -/
theorem test_step_storeU8 :
    (nextOf (step (program [0x0A#8] [0x1234#64, 0x100#64]))).map (fun t => (t.stack, t.memory)) =
      some ([], [(0, 0x0A#8), (0x100, 0x34#8)]) := by decide
/-- T34: the window's last address; memory is left as it was. -/
theorem test_step_storeU8_window :
    (nextOf (step (program [0x0A#8] [0xAB#64, 0x8FFF#64]))).map (fun t => (t.memory, t.display)) =
      some ([(0, 0x0A#8)], [(4095, 0xABABABAB#32)]) := by decide
/-- T51: the exact index, here negative. -/
theorem test_step_interrupt_xy :
    (nextOf (step (program [0x0E#8, 0x01#8] [-1#64, 1#64, 0x1234567890#64]))).map (fun t => (t.display, t.pc)) =
      some ([(63, 0x34567890#32)], 2) := by decide
/-- T52. -/
theorem test_step_interrupt_unknown :
    after (program [0x0E#8, 0x02#8] [1#64, 2#64, 3#64]) =
      some ([1#64, 2#64, 3#64], 0, some ⟨.unknownInterrupt 2#8, 0⟩) := by decide

/-! ## Witnesses: the hypotheses of each statement are met -/

/-- A one-to-one map other than the default, with all 17 mnemonics. -/
theorem witness_EncodingRoundTrip :
    OpcodeMap.wf defaultOpcodeMap ∧ OpcodeMap.wf defaultOpcodeMap.reverse ∧
      decodeOpcode defaultOpcodeMap 0x10#8 = some .ret ∧ 1 + ([] : List Byte).length = Mnemonic.ret.length ∧
      decodeOpcode defaultOpcodeMap 0x0D#8 = some .dupeAt ∧
      1 + (List.replicate 8 0xFF#8 : List Byte).length = Mnemonic.dupeAt.length := by decide

/-- The first and the last byte that is no opcode. -/
theorem witness_DecodeReadsTheSpecsWords : 0x11 ≤ (0x11#8 : Byte).toNat ∧ 0x11 ≤ (0xFF#8 : Byte).toNat := by decide

theorem witness_OpcodeDecodeIsTotal :
    OpcodeMap.wf defaultOpcodeMap ∧ (0x10#8 : Byte).toNat ≤ 0x10 ∧ 0x11 ≤ (0x11#8 : Byte).toNat ∧
      decodeOpcode defaultOpcodeMap 0x10#8 = some .ret ∧ 0x11 ≤ (0xFF#8 : Byte).toNat := by decide

theorem witness_LengthIsAFunctionOfTheOpcode :
    decode defaultOpcodeMap [0x0E#8, 0x07#8, 0x01#8] = .ok (.interrupt 7#8, [0x01#8]) := by rfl

theorem witness_ImmediatesAreLittleEndian :
    decodeOpcode defaultOpcodeMap 0x02#8 = some .push ∧ decodeOpcode defaultOpcodeMap 0x0D#8 = some .dupeAt ∧
      decodeOpcode defaultOpcodeMap 0x0E#8 = some .interrupt := by decide

/-- At the first address of memory, and at the last. -/
theorem witness_StepRunsTheDecodedInstruction :
    (program [0x0E#8, 0x01#8] []).stepReady = true ∧
      decode (program [0x0E#8, 0x01#8] []).config.opcodeMap (program [0x0E#8, 0x01#8] []).fetchBytes =
        .ok (.interrupt 1#8, List.replicate 7 0#8) ∧
      State.stepReady { State.reset with pc := 65535 } = true ∧
      decode State.reset.config.opcodeMap (State.fetchBytes { State.reset with pc := 65535 }) = .ok (.nop, []) := by
  exact ⟨rfl, rfl, rfl, rfl⟩

/-- The first address beyond memory; the least illegal byte; the least address at which a `Push` does not fit. -/
theorem witness_FetchFaults :
    State.stepReady { State.reset with pc := 65536 } = true ∧ 65536 ≤ (State.pc { State.reset with pc := 65536 }) ∧
      (program [0x11#8] []).stepReady = true ∧ (program [0x11#8] []).pc < 65536 ∧
      decodeOpcode defaultOpcodeMap (Sparse.read (program [0x11#8] []).memory 0) = none ∧
      State.stepReady { State.reset with memory := [(65528, 0x02#8)], pc := 65528 } = true ∧
      65528 < 65536 ∧
      decodeOpcode defaultOpcodeMap (Sparse.read [(65528, 0x02#8)] 65528) = some .push ∧
      65536 < 65528 + Mnemonic.push.length := by decide

theorem witness_ReadyStepCompletesOrFaults :
    State.reset.stepReady = true ∧ withinCapacity State.reset.config.opStackMax State.reset.stack.length :=
  ⟨rfl, trivial⟩

theorem witness_StepRefusedWhenNotReady :
    State.reset.stop.stepReady = false ∧ State.reset.stop.fault = none ∧
      (State.reset.takeFault .stackUnderflow).stepReady = false ∧
      (State.reset.takeFault .stackUnderflow).fault = some ⟨.stackUnderflow, 0⟩ := by decide

theorem witness_StepAnswersOkOrFault :
    (program [0x01#8] []).stepReady = true ∧ fetch (program [0x01#8] []) = .ok .halt := ⟨rfl, rfl⟩

/-- The longest image that fits, and the shortest that does not. -/
theorem witness_ConstructionLoadsTheImage :
    (List.replicate 65536 0x10#8).length ≤ 65536 ∧ 65536 < (List.replicate 65537 0x10#8).length := by
  rw [List.length_replicate, List.length_replicate]
  decide

theorem witness_PushAppendsTheImmediate :
    State.reset.config.opStackMax ≠ some State.reset.stack.length ∧
      (some 1 : Option Nat) ≠ some State.reset.stack.length := by decide

theorem witness_PopSwapDupeStackPictures :
    (on [1#64]).stack = [] ++ [1#64] ∧ (on [1#64, 2#64]).stack = [] ++ [1#64, 2#64] ∧
      withinCapacity (on [1#64, 2#64]).config.opStackMax (on [1#64, 2#64]).stack.length ∧
      (on [1#64]).config.opStackMax ≠ some (on [1#64]).stack.length :=
  ⟨rfl, rfl, trivial, by decide⟩

/-- The least and the greatest legal index on a stack of two cells, and the nearest illegal ones. -/
theorem witness_DupeAtCopiesTheIndexedCell :
    1 ≤ (1#64 : Word).toInt ∧ (2#64 : Word).toInt ≤ (on [7#64, 8#64]).stack.length ∧
      (on [7#64, 8#64]).config.opStackMax ≠ some (on [7#64, 8#64]).stack.length ∧
      (0#64 : Word).toInt < 1 ∧ (-1#64 : Word).toInt < 1 ∧
      ((on [7#64, 8#64]).stack.length : Int) < (3#64 : Word).toInt := by decide

/-- A state whose capacities are both 1, with both stacks full. -/
def full : State :=
  { on [5#64] with
    config := { defaultConfig with opStackMax := some 1, callStackMax := some 1 }
    callStack := [⟨3⟩] }

theorem witness_FullStacksFault :
    full.config.opStackMax = some full.stack.length ∧ full.stack ≠ [] ∧ 1 ≤ (1#64 : Word).toInt ∧
      (1#64 : Word).toInt ≤ full.stack.length ∧ full.config.callStackMax = some full.callStack.length ∧
      full.stack = [] ++ [5#64] := by decide

theorem witness_ShallowStackUnderflows :
    Instr.call ∈ [Instr.pop, .swap, .dupe, .add, .mul, .sub, .div, .jump, .loadU8, .storeU8, .call] ∧
      State.reset.stack = [] ∧ Instr.storeU8 ∈ [Instr.swap, .add, .mul, .sub, .div, .storeU8] ∧
      (on [9#64]).stack = [9#64] := by decide

theorem witness_SwapTwiceRestoresTheStack :
    2 ≤ (on [1#64, 2#64]).stack.length ∧
      withinCapacity (on [1#64, 2#64]).config.opStackMax (on [1#64, 2#64]).stack.length := ⟨by decide, trivial⟩

theorem witness_DupeIsDupeAtOne :
    (on [5#64]).stack ≠ [] ∧ exec .dupe (on [5#64]) = .next { on [5#64, 5#64] with pc := 1 } ∧
      State.fault { on [5#64, 5#64] with pc := 1 } = none := ⟨by decide, rfl, rfl⟩

theorem witness_ArithmeticWraps :
    (on [0x7FFFFFFFFFFFFFFF#64, 1#64]).stack = [] ++ [0x7FFFFFFFFFFFFFFF#64, 1#64] ∧
      (on [0x7FFFFFFFFFFFFFFF#64, 1#64]).config.arithOverflow = .wrap ∧
      withinCapacity (on [0x7FFFFFFFFFFFFFFF#64, 1#64]).config.opStackMax 2 := ⟨rfl, rfl, trivial⟩

/-- Each result at an end of the range of `i64`. -/
theorem witness_ArithmeticInRangeIsExact :
    (on [0x7FFFFFFFFFFFFFFE#64, 1#64]).stack = [] ++ [0x7FFFFFFFFFFFFFFE#64, 1#64] ∧
      withinCapacity (on [0x7FFFFFFFFFFFFFFE#64, 1#64]).config.opStackMax 2 ∧
      (0x7FFFFFFFFFFFFFFE#64 : Word).toInt + (1#64 : Word).toInt = 2 ^ 63 - 1 ∧
      (0x4000000000000000#64 : Word).toInt * (-2#64 : Word).toInt = -(2 ^ 63) ∧
      (-1#64 : Word).toInt - (0x7FFFFFFFFFFFFFFF#64 : Word).toInt = -(2 ^ 63) :=
  ⟨rfl, trivial, by decide, by decide, by decide⟩

/-- The state after reset with `ARITH_OVERFLOW = fault`. -/
def faulting (S : List Word) : State := { on S with config := { defaultConfig with arithOverflow := .fault } }

/-- Each result one beyond an end of the range, or the nearest a product comes to that. -/
theorem witness_ArithmeticOverflowFaults :
    (faulting [0x7FFFFFFFFFFFFFFF#64, 1#64]).stack = [] ++ [0x7FFFFFFFFFFFFFFF#64, 1#64] ∧
      (faulting [0x7FFFFFFFFFFFFFFF#64, 1#64]).config.arithOverflow = .fault ∧
      2 ^ 63 ≤ (0x7FFFFFFFFFFFFFFF#64 : Word).toInt + (1#64 : Word).toInt ∧
      (0x8000000000000000#64 : Word).toInt + (-1#64 : Word).toInt < -(2 ^ 63) ∧
      2 ^ 63 ≤ (0x8000000000000000#64 : Word).toInt * (-1#64 : Word).toInt ∧
      (0x8000000000000000#64 : Word).toInt - (1#64 : Word).toInt < -(2 ^ 63) := by decide

theorem witness_DivTruncatesTowardZero :
    (on [2#64, -7#64]).stack = [] ++ [2#64, -7#64] ∧ (2#64 : Word).toInt ≠ 0 ∧
      ¬ ((-7#64 : Word).toInt = -(2 ^ 63) ∧ (2#64 : Word).toInt = -1) ∧
      ¬ ((0x8000000000000001#64 : Word).toInt = -(2 ^ 63) ∧ (-1#64 : Word).toInt = -1) ∧
      withinCapacity (on [2#64, -7#64]).config.opStackMax 2 :=
  ⟨rfl, by decide, by decide, by decide, trivial⟩

theorem witness_DivFaultsOnZeroAndOverflow :
    (on [-1#64, 0x8000000000000000#64]).stack = [] ++ [-1#64, 0x8000000000000000#64] ∧ (0#64 : Word).toInt = 0 ∧
      (0x8000000000000000#64 : Word).toInt = -(2 ^ 63) ∧ (-1#64 : Word).toInt = -1 ∧
      (on [-1#64, 0x8000000000000000#64]).config.divOverflow = .fault ∧
      ({ defaultConfig with divOverflow := .wrap } : Config).divOverflow = .wrap ∧
      withinCapacity ({ defaultConfig with divOverflow := .wrap } : Config).opStackMax 2 :=
  ⟨rfl, by decide, by decide, by decide, rfl, rfl, trivial⟩

/-- A negative destination and 0: the two sides of the clamp. -/
theorem witness_JumpLandsAtThePoppedValue :
    (on [-1#64]).stack = [] ++ [-1#64] ∧ (on [0#64]).stack = [] ++ [0#64] := by decide

theorem witness_CallPushesItsAddress :
    (on [12#64]).stack = [] ++ [12#64] ∧ (on [12#64]).config.callStackMax ≠ some (on [12#64]).callStack.length := by
  decide

theorem witness_RetResumesAfterTheCall :
    State.callStack { State.reset with callStack := [⟨9⟩] } = [] ++ [⟨9⟩] ∧ State.reset.callStack = [] := by decide

theorem witness_CallThenRetResumesAfterTheCall :
    exec .call (on [12#64]) = .next { State.reset with callStack := [⟨0⟩], pc := 12 } ∧
      State.fault { State.reset with callStack := [⟨0⟩], pc := 12 } = none := ⟨rfl, rfl⟩

/-- The ends of memory, and the addresses next to them. -/
theorem witness_LoadPushesTheByte :
    (on [0#64]).stack = [] ++ [0#64] ∧ 0 ≤ (0#64 : Word).toInt ∧ (65535#64 : Word).toInt < 65536 ∧
      withinCapacity (on [0#64]).config.opStackMax 1 ∧ (-1#64 : Word).toInt < 0 ∧ 65536 ≤ (65536#64 : Word).toInt :=
  ⟨rfl, by decide, by decide, trivial, by decide, by decide⟩

/-- The addresses next to the window on either side, and the ends of memory. -/
theorem witness_StoreWritesTheLowByte :
    (on [0x1234#64, 0x7FFF#64]).stack = [] ++ [0x1234#64, 0x7FFF#64] ∧
      Memory.wf (on [0x1234#64, 0x7FFF#64]).memory ∧
      ∀ addr ∈ [0#64, 0x7FFF#64, 0x9000#64, 0xFFFF#64], 0 ≤ (addr : Word).toInt ∧ addr.toInt < 65536 ∧
        ¬ (0x8000 ≤ addr.toInt ∧ addr.toInt < 0x9000) := by
  refine ⟨rfl, by decide, ?_⟩
  simp only [List.forall_mem_cons, List.not_mem_nil, false_implies, implies_true, and_true]
  exact ⟨by decide, by decide, by decide, by decide⟩

/-- Both ends of the window; on a display of one cell, the first address without a cell. -/
theorem witness_WindowStoreDrawsACell :
    (on [0xAB#64, 0x8FFF#64]).stack = [] ++ [0xAB#64, 0x8FFF#64] ∧ 0x8000 ≤ (0x8000#64 : Word).toInt ∧
      (0x8FFF#64 : Word).toInt < 0x9000 ∧
      Sparse.wf State.reset.config.displayCells State.reset.display ∧
      (0x8FFF#64 : Word).toInt - 0x8000 < (defaultConfig.displayWidth * defaultConfig.displayHeight : Nat) ∧
      (((configFor 1 1).displayWidth * (configFor 1 1).displayHeight : Nat) : Int) ≤
        (0x8001#64 : Word).toInt - 0x8000 := by decide

theorem witness_StoreOutsideMemoryFaults :
    (on [1#64, 65536#64]).stack = [] ++ [1#64, 65536#64] ∧ (-1#64 : Word).toInt < 0 ∧
      65536 ≤ (65536#64 : Word).toInt := by decide

/-- The engine after a store of 0x1AB to address 5. -/
def stored : State := { State.reset with memory := [(5, 0xAB#8)], pc := 1 }

theorem witness_LoadAfterStoreReadsTheStoredByte :
    Memory.wf (on [0x1AB#64, 5#64]).memory ∧ (on [0x1AB#64, 5#64]).stack = [] ++ [0x1AB#64, 5#64] ∧
      exec .storeU8 (on [0x1AB#64, 5#64]) = .next stored ∧ stored.fault = none ∧
      State.memory { stored with stack := [5#64] } = stored.memory ∧
      State.stack { stored with stack := [5#64] } = [] ++ [5#64] ∧
      withinCapacity stored.config.opStackMax 1 ∧ 0 ≤ (5#64 : Word).toInt ∧ (5#64 : Word).toInt < 65536 :=
  ⟨by decide, rfl, rfl, rfl, rfl, rfl, trivial, by decide, by decide⟩

theorem witness_StoredByteIsFetched :
    Memory.wf (on [0x1AB#64, 5#64]).memory ∧ (on [0x1AB#64, 5#64]).stack = [] ++ [0x1AB#64, 5#64] ∧
      exec .storeU8 (on [0x1AB#64, 5#64]) = .next stored ∧ stored.fault = none ∧
      ¬ (0x8000 ≤ (5#64 : Word).toInt ∧ (5#64 : Word).toInt < 0x9000) ∧
      State.memory { stored with pc := 5 } = stored.memory ∧
      ((State.pc { stored with pc := 5 }) : Int) = (5#64 : Word).toInt :=
  ⟨by decide, rfl, rfl, rfl, by decide, rfl, by decide⟩

/-- The ends of a display of 64 by 64, and the indices next to them. -/
theorem witness_PixelServiceByIndex :
    (on [4095#64, 7#64]).stack = [] ++ [4095#64, 7#64] ∧
      Sparse.wf (on [4095#64, 7#64]).config.displayCells (on [4095#64, 7#64]).display ∧ 0 ≤ (0#64 : Word).toInt ∧
      (4095#64 : Word).toInt < (defaultConfig.displayWidth * defaultConfig.displayHeight : Nat) ∧
      (-1#64 : Word).toInt < 0 ∧
      ((defaultConfig.displayWidth * defaultConfig.displayHeight : Nat) : Int) ≤ (4096#64 : Word).toInt := by decide

/-- T51's edges: cell 4095 from (63, 63), cell 63 from (-1, 1), and the faulting -1 and 4096. -/
theorem witness_PixelServiceByCoordinates :
    (on [63#64, 63#64, 7#64]).stack = [] ++ [63#64, 63#64, 7#64] ∧
      Sparse.wf State.reset.config.displayCells State.reset.display ∧
      0 ≤ (1#64 : Word).toInt * defaultConfig.displayWidth + (-1#64 : Word).toInt ∧
      (63#64 : Word).toInt * defaultConfig.displayWidth + (63#64 : Word).toInt <
        (defaultConfig.displayWidth * defaultConfig.displayHeight : Nat) ∧
      (0#64 : Word).toInt * defaultConfig.displayWidth + (-1#64 : Word).toInt < 0 ∧
      ((defaultConfig.displayWidth * defaultConfig.displayHeight : Nat) : Int) ≤
        (64#64 : Word).toInt * defaultConfig.displayWidth + (0#64 : Word).toInt := by decide

theorem witness_CoordinatesAgreeWithIndex :
    (131#64 : Word).toInt = (2#64 : Word).toInt * State.reset.config.displayWidth + (3#64 : Word).toInt := by decide

theorem witness_UnknownInterruptCodeFaults : 0x02 ≤ (0x02#8 : Byte).toNat ∧ 0x02 ≤ (0xFF#8 : Byte).toNat := by decide

theorem witness_MissingInterruptArgumentFaults :
    State.reset.stack = [] ∧ (0x01#8 : Byte) ∈ [0x00#8, 0x01#8] ∧ (on [7#64]).stack = [7#64] ∧
      (on [7#64, 8#64]).stack = [7#64, 8#64] := by decide

theorem witness_FrameOfNonStoringInstructions :
    Instr.jump ≠ .storeU8 ∧ Instr.jump.mnemonic ≠ .interrupt ∧ Instr.jump ≠ .halt ∧ Instr.jump ≠ .call ∧
      Instr.jump ≠ .ret ∧ exec .jump (on [12#64]) = .next { State.reset with pc := 12 } ∧
      exec .nop State.reset = .next { State.reset with pc := 1 } :=
  ⟨by decide, by decide, by decide, by decide, by decide, rfl, rfl⟩

/-- A byte's neighbour, a window store's other cells, and a store with no address. -/
theorem witness_FrameOfStoreU8 :
    exec .storeU8 (on [0x1AB#64, 5#64]) = .next stored ∧ (on [0x1AB#64, 5#64]).stack.getLast? = some 5#64 ∧
      storeTarget 5#64 ≠ .byte 6 ∧ storeTarget 5#64 ≠ .cell 5 ∧ storeTarget 0x8000#64 ≠ .byte 0x8000 ∧
      storeTarget 0x8000#64 ≠ .cell 1 ∧
      exec .storeU8 State.reset = .next (State.reset.takeFault .stackUnderflow) ∧ State.reset.stack = [] :=
  ⟨rfl, rfl, by decide, by decide, by decide, by decide, rfl, rfl⟩

/-- Both services draw a cell that was 0. -/
theorem witness_FrameOfInterrupt :
    exec (.interrupt 0x00#8) (on [5#64, 9#64]) = .next { State.reset with display := [(5, 9#32)], pc := 2 } ∧
      exec (.interrupt 0x01#8) (on [5#64, 0#64, 9#64]) = .next { State.reset with display := [(5, 9#32)], pc := 2 } ∧
      Sparse.read [(5, 9#32)] 5 ≠ Sparse.read State.reset.display 5 := ⟨rfl, rfl, by decide⟩

theorem reset_inv : State.reset.Inv := inv_of_plain (by decide) (by decide) (by decide) rfl rfl rfl rfl

theorem witness_StepKeepsTheInvariant :
    (program [0x09#8] [0#64]).Inv ∧
      step (program [0x09#8] [0#64]) = .next { program [0x09#8] [9#64] with pc := 1 } :=
  ⟨inv_of_plain (by decide) (by decide) (by decide) rfl rfl rfl rfl, rfl⟩

theorem witness_RequestsKeepTheInvariant :
    (program [0x09#8] [0#64]).Inv ∧ (State.reset.takeFault .stackUnderflow).Inv :=
  ⟨inv_of_plain (by decide) (by decide) (by decide) rfl rfl rfl rfl,
   ⟨by decide, by decide, by decide, by decide, fun r h => by cases h; rfl, trivial, trivial⟩⟩

theorem witness_RunsDoNotReadTheDisplay :
    Host.Core.run Sys2Proof.core 2 State.reset = .next { State.reset with pc := 2 } := by rfl

theorem witness_WindowBytesStayAsConstructed :
    construct defaultConfig [0x00#8, 0x01#8] = some (program [0x00#8, 0x01#8] []) ∧
      Host.Core.run Sys2Proof.core 2 (program [0x00#8, 0x01#8] []) =
        .next { program [0x00#8, 0x01#8] [] with pc := 2, paused := true } ∧
      0x8000 ≤ 0x8FFF ∧ 0x8FFF < 0x9000 := ⟨rfl, rfl, by decide, by decide⟩

theorem witness_OnlyStoreU8WritesMemory :
    step (program [0x0A#8] [0xAB#64, 5#64]) =
        .next { program [] [] with memory := [(0, 0x0A#8), (5, 0xAB#8)], pc := 1 } ∧
      Sparse.read [(0, 0x0A#8), (5, 0xAB#8)] 5 ≠ Sparse.read (program [0x0A#8] []).memory 5 := ⟨rfl, by decide⟩

theorem witness_OnlyHaltPauses :
    step (program [0x01#8] []) = .next { program [0x01#8] [] with pc := 1, paused := true } ∧
      step State.reset = .next { State.reset with pc := 1 } := ⟨rfl, rfl⟩

/-- One state for each clause, the default width meeting both bounds on it. -/
theorem witness_HowPcChanges :
    (17 ≤ defaultConfig.pcBits ∧ 64 ≤ defaultConfig.pcBits) ∧
    ((program [0x03#8] []).Inv ∧ fetch (program [0x03#8] []) = .ok .pop ∧
      step (program [0x03#8] []) = .next ((program [0x03#8] []).takeFault .stackUnderflow)) ∧
    ((program [0x02#8] []).Inv ∧ fetch (program [0x02#8] []) = .ok (.push 0#64) ∧
      step (program [0x02#8] []) = .next { program [0x02#8] [0#64] with pc := 9 }) ∧
    ((program [0x08#8] [-1#64]).Inv ∧ fetch (program [0x08#8] [-1#64]) = .ok .jump ∧
      step (program [0x08#8] [-1#64]) = .next (program [0x08#8] [])) ∧
    ((program [0x0F#8] [-1#64]).Inv ∧ fetch (program [0x0F#8] [-1#64]) = .ok .call ∧
      step (program [0x0F#8] [-1#64]) = .next { program [0x0F#8] [] with callStack := [⟨0⟩], pc := 2 ^ 64 - 1 }) ∧
    (State.Inv { program [0x10#8] [] with callStack := [⟨65535⟩] } ∧
      fetch { program [0x10#8] [] with callStack := [⟨65535⟩] } = .ok .ret ∧
      step { program [0x10#8] [] with callStack := [⟨65535⟩] } = .next { program [0x10#8] [] with pc := 65536 }) :=
  ⟨by decide, ⟨inv_of_plain (by decide) (by decide) (by decide) rfl rfl rfl rfl, rfl, rfl⟩,
   ⟨inv_of_plain (by decide) (by decide) (by decide) rfl rfl rfl rfl, rfl, rfl⟩,
   ⟨inv_of_plain (by decide) (by decide) (by decide) rfl rfl rfl rfl, rfl, rfl⟩,
   ⟨inv_of_plain (by decide) (by decide) (by decide) rfl rfl rfl rfl, rfl, rfl⟩,
   ⟨⟨by decide, by decide, by decide, by decide, nofun, trivial, trivial⟩, rfl, rfl⟩⟩

theorem witness_NetChangeOfTheOperandStack :
    fetch (program [0x08#8] [0#64]) = .ok .jump ∧ step (program [0x08#8] [0#64]) = .next (program [0x08#8] []) ∧
      (program [0x08#8] []).fault = none := ⟨rfl, rfl, rfl⟩

theorem witness_EachInstructionRaisesOnlyItsFaults :
    (on [0#64]).stepReady = true ∧ withinCapacity (on [0#64]).config.opStackMax (on [0#64]).stack.length ∧
      exec .div (on [0#64]) = .next (State.reset.takeFault .stackUnderflow) ∧
      (State.reset.takeFault .stackUnderflow).fault = some ⟨.stackUnderflow, 0⟩ := ⟨rfl, trivial, rfl, rfl⟩

theorem witness_DefaultParametersRaiseKindsOneToEleven :
    (program [0x03#8] []).config.opStackMax = none ∧ (program [0x03#8] []).config.callStackMax = none ∧
      (program [0x03#8] []).config.arithOverflow = .wrap ∧
      step (program [0x03#8] []) = .next ((program [0x03#8] []).takeFault .stackUnderflow) ∧
      ((program [0x03#8] []).takeFault .stackUnderflow).fault = some ⟨.stackUnderflow, 0⟩ :=
  ⟨rfl, rfl, rfl, rfl, rfl⟩

theorem witness_FaultIsFinalUntilConstruction :
    (∀ image w h, Request.stop ≠ .construct image w h) ∧
      (State.reset.takeFault .stackUnderflow).fault = some ⟨.stackUnderflow, 0⟩ := ⟨nofun, rfl⟩

theorem witness_MemoriesThatReadAlikeAreEqual :
    Memory.wf [(0, 1#8), (65535, 2#8)] ∧
      ∀ a, a < 65536 → Sparse.read [(0, 1#8), (65535, 2#8)] a = Sparse.read [(0, 1#8), (65535, 2#8)] a :=
  ⟨by decide, fun _ _ => rfl⟩

theorem witness_DebugReadsAndSnapshot :
    65535 < 65536 ∧ 65536 ≤ 65536 ∧ 4095 < State.reset.config.displayWidth * State.reset.config.displayHeight := by decide

/-- The longest image that fits, and the shortest that does not. -/
theorem witness_ConstructRequestReplacesTheEngine :
    (List.replicate 65536 0x10#8).length ≤ 65536 ∧ 65536 < (List.replicate 65537 0x10#8).length :=
  witness_ConstructionLoadsTheImage

/-- A store to the window's first address, and one next to its last. -/
theorem witness_StepKeepsTheWindowBytes :
    step (program [0x0A#8] [0xAB#64, 0x8000#64]) =
        .next { program [0x0A#8] [] with display := [(0, 0xABABABAB#32)], pc := 1 } ∧
      step (program [0x0A#8] [0xAB#64, 0x9000#64]) =
        .next { program [] [] with memory := [(0, 0x0A#8), (0x9000, 0xAB#8)], pc := 1 } ∧
      0x8000 ≤ 0x8FFF ∧ 0x8FFF < 0x9000 :=
  ⟨eq_next_of_nextOf (by decide), eq_next_of_nextOf (by decide), by decide, by decide⟩

/-- A construction on a faulted engine answers `Ok`, with the new image and size and the old parameters. -/
theorem test_construct_request :
    serve (.construct [0x02#8] 2 3) (full.takeFault .stackUnderflow) =
      (.ok, { State.reset with
        config := { defaultConfig with displayWidth := 2, displayHeight := 3, opStackMax := some 1, callStackMax := some 1 }
        memory := [(0, 0x02#8)] }) := rfl

end Sys2Proof.Tests
end

section
/-! SUPPORT. What an instruction can do, said once for all seventeen: `exec_ends` lists the seven kinds of effect an
instruction completes with and the one shape of a fault, and the statements about every step are case analyses of it. -/

namespace Sys2Proof.Machine

/-- The instructions that rewrite the operand stack and nothing else but `pc`. -/
def stackOnly : Instr → Bool
  | .nop | .push _ | .pop | .add | .mul | .sub | .div | .loadU8 | .swap | .dupe | .dupeAt _ => true
  | .halt | .jump | .storeU8 | .interrupt _ | .call | .ret => false

/-- Pushed cells less popped cells, by R21's table. -/
def netChange : Instr → Int
  | .nop | .halt | .ret | .swap | .loadU8 => 0
  | .push _ | .dupe | .dupeAt _ => 1
  | .pop | .jump | .call | .add | .mul | .sub | .div => -1
  | .storeU8 => -2
  | .interrupt code => if code = 0x00#8 then -2 else -3

/-- From `s`, instruction `i` completes: its execution (R115) makes `u` of `s`, and its advance (R116) then writes `n` to
the program counter.  One constructor for each kind of effect. -/
inductive Completes (s : State) : Instr → State → Nat → Prop
  | stack {i : Instr} {S : List Word} (only : stackOnly i = true)
      (len : (S.length : Int) = s.stack.length + netChange i)
      (fits : withinCapacity s.config.opStackMax s.stack.length → withinCapacity s.config.opStackMax S.length) :
      Completes s i (s.setStack S) (s.pc + i.mnemonic.length)
  | halt : Completes s .halt (s.setPaused true) (s.pc + Mnemonic.halt.length)
  | store {S : List Word} {value addr : Word} {a : Nat} (popped : s.stack = S ++ [value, addr])
      (target : addr.toInt = (a : Int)) (inMemory : a < memSize) (noWindow : ¬ (displayBase ≤ a ∧ a < displayLimit)) :
      Completes s .storeU8 ((s.setStack S).setMemory (Sparse.write s.memory a (low8 value)))
        (s.pc + Mnemonic.storeU8.length)
  | draw {i : Instr} {S : List Word} {j : Nat} {c : Pixel} (drawing : i = .storeU8 ∨ ∃ code, i = .interrupt code)
      (len : (S.length : Int) = s.stack.length + netChange i) (onDisplay : j < s.config.displayCells) :
      Completes s i ((s.setStack S).setDisplay (Sparse.write s.display j c)) (s.pc + i.mnemonic.length)
  | jump {S : List Word} {dest : Word} (popped : s.stack = S ++ [dest]) :
      Completes s .jump (s.setStack S) (jumpTarget dest)
  | call {S : List Word} {dest : Word} (popped : s.stack = S ++ [dest])
      (room : s.config.callStackMax ≠ some s.callStack.length) :
      Completes s .call ((s.setStack S).setCallStack (s.callStack ++ [{ ret := s.pc }])) (callTarget dest)
  | ret {C : List Frame} {f : Frame} (popped : s.callStack = C ++ [f]) :
      Completes s .ret (s.setCallStack C) (f.ret + 1)

/-- The two ways an execution ends (R117): it completes and writes `pc` last, or it faults with at most the operand stack
changed (R243).  `Halt` has no fault. -/
inductive Ends (s : State) (i : Instr) : State → Prop
  | completes {u : State} {n : Nat} (done : Completes s i u n) : Ends s i (u.setPc (Config.pcValue u.config n))
  | faults {k : FaultKind} {S : List Word} (notHalt : i ≠ .halt) (len : S.length ≤ s.stack.length) :
      Ends s i ((s.setStack S).takeFault k)

section
variable {s : State} {i : Instr}

/-! ## The operations that a chain of micro-operations ends in -/

theorem ends_goto {u : State} {n : Nat} (h : Completes s i u n) : Post (Ends s i) (goto n u) := post_goto (.completes h)

/-- Two pops: either of them faults on an empty stack, and otherwise the top two cells are passed on. -/
theorem ends_pop_pop {f : Word → Word → State → Result} (notHalt : i ≠ .halt)
    (h : ∀ S a b, s.stack = S ++ [a, b] → Post (Ends s i) (f b a (s.setStack S))) :
    Post (Ends s i) (pop s fun b u => pop u fun a u => f b a u) := by
  refine post_pop (.faults notHalt le_rfl) fun S b hb =>
    post_pop (.faults notHalt (by simp [hb])) fun S' a ha => h S' a b ?_
  have hS : S = S' ++ [a] := ha
  rw [hb, hS, List.append_assoc, List.singleton_append]

/-- A pop of a service's argument from the cells `X` that the pops before it left. -/
theorem ends_popArg {name : ArgName} {X : List Word} {f : Word → State → Result} (notHalt : i ≠ .halt)
    (kept : X.length ≤ s.stack.length) (h : ∀ S v, X.length = S.length + 1 → Post (Ends s i) (f v (s.setStack S))) :
    Post (Ends s i) (popArg name (s.setStack X) f) :=
  post_popArg (.faults notHalt kept) fun S v hX => h S v (by rw [show X = S ++ [v] from hX]; simp)

/-- The last push of an instruction that rewrites the operand stack, over the cells `X` it kept. -/
theorem ends_push {X : List Word} {v : Word} (only : stackOnly i = true) (kept : X.length ≤ s.stack.length)
    (len : (X.length : Int) + 1 = s.stack.length + netChange i) :
    Post (Ends s i) (push v (s.setStack X) (advance i.mnemonic)) := by
  have notHalt : i ≠ .halt := by rintro rfl; cases only
  intro t h
  rcases push_eq_next.1 h with ⟨-, rfl⟩ | ⟨room, h⟩
  · exact .faults notHalt kept
  · refine ends_goto (.stack only (by simpa using len) fun hc => ?_) t h
    simp only [State.setStack_stack, List.length_append, List.length_singleton]
    rcases Nat.lt_or_eq_of_le kept with hlt | heq
    · exact withinCapacity_of_le hc hlt
    · rw [heq]
      exact withinCapacity_succ hc (heq ▸ room)

/-- The display write that ends a drawing instruction. -/
theorem ends_dispWrite {S : List Word} {j : Int} {c : Pixel} (drawing : i = .storeU8 ∨ ∃ code, i = .interrupt code)
    (len : (S.length : Int) = s.stack.length + netChange i) (kept : S.length ≤ s.stack.length) :
    Post (Ends s i) (dispWrite j c (s.setStack S) (advance i.mnemonic)) := by
  have notHalt : i ≠ .halt := by rintro rfl; simp at drawing
  intro t h
  rcases dispWrite_eq_next.1 h with ⟨-, rfl⟩ | ⟨hj, h⟩
  · exact .faults notHalt kept
  · have onDisplay : j.toNat < s.config.displayCells := by
      have := hasCell_iff.1 hj
      simp only [State.setStack_config] at this
      omega
    exact ends_goto (.draw drawing len onDisplay) t h

end

/-- The store of a byte: to memory, to the display, or outside both. -/
theorem ends_storeU8 (s : State) : Post (Ends s .storeU8) (execStoreU8 s) := by
  refine ends_pop_pop nofun fun S value addr hs t h => ?_
  rcases memWrite_eq_next.1 h with ⟨-, rfl⟩ | ⟨j, -, h⟩ | ⟨a, ha, h⟩
  · exact .faults nofun (by simp [hs])
  · exact ends_dispWrite (.inl rfl) (by simp [hs, netChange]) (by simp [hs]) t h
  · rcases storeTarget_cases addr with ⟨hout, -⟩ | ⟨j, hcell, -⟩ | ⟨a', hbyte, target, inMemory, noWindow⟩
    · simp [hout] at ha
    · simp [hcell] at ha
    · obtain rfl : a' = a := by simpa [hbyte] using ha
      exact ends_goto (.store hs target inMemory noWindow) t h

/-- Both services end in a display write; an unknown code faults first. -/
theorem ends_interrupt (code : Byte) (s : State) : Post (Ends s (.interrupt code)) (execInterrupt code s) := by
  unfold execInterrupt
  split
  · refine ends_popArg (X := s.stack) nofun le_rfl fun S color hS => ends_popArg nofun (by omega) fun S' index hS' => ?_
    exact ends_dispWrite (.inr ⟨code, rfl⟩) (by simp [netChange, *]; omega) (by omega)
  · split
    · refine ends_popArg (X := s.stack) nofun le_rfl fun S color hS => ends_popArg nofun (by omega) fun S' y hS' =>
        ends_popArg nofun (by omega) fun S'' x hS'' => ?_
      exact ends_dispWrite (.inr ⟨code, rfl⟩) (by simp [netChange, *]; omega) (by omega)
    · exact post_raise (.faults nofun le_rfl)

/-- What an instruction can do. -/
theorem exec_ends (i : Instr) (s : State) : Post (Ends s i) (exec i s) := by
  cases i with
  | nop => exact ends_goto (u := s.setStack s.stack) (.stack rfl (by simp [netChange]) id)
  | halt => exact ends_goto .halt
  | push imm => exact ends_push (X := s.stack) rfl le_rfl (by simp [netChange])
  | pop =>
    refine post_pop (.faults nofun le_rfl) fun S v hs => ends_goto (.stack rfl (by simp [hs, netChange]) fun hc => ?_)
    exact withinCapacity_of_le hc (by simp [hs])
  | add | mul | sub =>
    refine ends_pop_pop nofun fun S a b hs => post_arith (fun _ => .faults nofun (by simp [hs])) fun r => ?_
    exact ends_push rfl (by simp [hs]) (by simp [hs, netChange]; omega)
  | div =>
    refine ends_pop_pop nofun fun S a b hs =>
      post_divide (P := Ends s .div) (.faults nofun (by simp [hs])) (.faults nofun (by simp [hs])) fun r => ?_
    exact ends_push rfl (by simp [hs]) (by simp [hs, netChange]; omega)
  | jump => exact post_pop (.faults nofun le_rfl) fun S dest hs => ends_goto (.jump hs)
  | loadU8 =>
    simp only [exec, execLoadU8]
    refine post_pop (.faults nofun le_rfl) fun S addr hs => post_memRead (.faults nofun (by simp [hs])) fun b => ?_
    exact ends_push rfl (by simp [hs]) (by simp [hs, netChange])
  | storeU8 => exact ends_storeU8 s
  | swap =>
    refine ends_pop_pop nofun fun S a b hs => post_push (fun _ => .faults nofun (by simp [hs])) ?_
    exact ends_push (X := S ++ [b]) rfl (by simp [hs]) (by simp [hs, netChange]; omega)
  | dupe =>
    exact post_readTop (.faults nofun le_rfl) fun S v _ => ends_push (X := s.stack) rfl le_rfl (by simp [netChange])
  | dupeAt imm =>
    exact post_readAt (.faults nofun le_rfl) fun v => ends_push (X := s.stack) rfl le_rfl (by simp [netChange])
  | interrupt code => exact ends_interrupt code s
  | call =>
    simp only [exec, execCall]
    refine post_pop (.faults nofun le_rfl) fun S dest hs => ?_
    intro t h
    rcases csPush_eq_next.1 h with ⟨-, rfl⟩ | ⟨room, h⟩
    · exact .faults nofun (by simp [hs])
    · exact ends_goto (.call hs room) t h
  | ret => exact post_csPop (.faults nofun le_rfl) fun C f hs => ends_goto (.ret hs)

/-- What a step can do: it is asked of a ready engine, and it runs the fetched instruction or faults fetching it. -/
theorem step_ends {s t : State} (h : step s = .next t) :
    s.fault = none ∧ s.paused = false ∧
      ((∃ i, fetch s = .ok i ∧ Ends s i t) ∨ ∃ k, fetch s = .error k ∧ t = s.takeFault k) := by
  obtain ⟨ready, h⟩ := step_eq_next.1 h
  obtain ⟨hfault, hpaused⟩ := stepReady_iff.1 ready
  refine ⟨hfault, hpaused, ?_⟩
  rcases h with ⟨i, hi, h⟩ | ⟨k, hk, rfl⟩
  · exact .inl ⟨i, hi, exec_ends i s t h⟩
  · exact .inr ⟨k, hk, rfl⟩

end Sys2Proof.Machine
end

section
/-! SUPPORT. The invariant of R41: each update of the state that keeps it, then every instruction and every step. -/

namespace Sys2Proof.Machine

variable {s : State}

/-! ## One rule for each update -/

theorem State.Inv.setStack (h : s.Inv) {S : List Word} (fits : withinCapacity s.config.opStackMax S.length) :
    (s.setStack S).Inv := { h with stackFits := fits }

theorem State.Inv.setCallStack (h : s.Inv) {C : List Frame} (frames : ∀ f ∈ C, f.ret < memSize)
    (fits : withinCapacity s.config.callStackMax C.length) : (s.setCallStack C).Inv :=
  { h with frames := frames, callStackFits := fits }

theorem State.Inv.writeMemory (h : s.Inv) {a : Nat} (ha : a < memSize) (b : Byte) :
    (s.setMemory (Sparse.write s.memory a b)).Inv := { h with memory := Sparse.wf_write h.memory ha }

theorem State.Inv.writeDisplay (h : s.Inv) {j : Nat} (hj : j < s.config.displayCells) (c : Pixel) :
    (s.setDisplay (Sparse.write s.display j c)).Inv := { h with display := Sparse.wf_write h.display hj }

theorem State.Inv.setPaused (h : s.Inv) (b : Bool) : (s.setPaused b).Inv := { h with }

theorem State.Inv.takeFault (h : s.Inv) (k : FaultKind) : (s.takeFault k).Inv :=
  { h with faultAddr := by rintro _ ⟨⟩; rfl }

/-- The write of `pc` that ends a step, in an engine that has not faulted. -/
theorem State.Inv.setPc (h : s.Inv) (noFault : s.fault = none) (n : Nat) :
    (s.setPc (Config.pcValue s.config n)).Inv :=
  { h with
    pcFits := Nat.mod_lt _ (Nat.two_pow_pos _)
    faultAddr := by simp [noFault] }

/-! ## Instructions, steps and requests -/

theorem Completes.fault_eq {i : Instr} {u : State} {n : Nat} (h : Completes s i u n) : u.fault = s.fault := by
  cases h <;> rfl

/-- An instruction in memory that completes keeps the invariant before its write of `pc`. -/
theorem Completes.inv {i : Instr} {u : State} {n : Nat} (h : Completes s i u n) (hs : s.Inv) (inMemory : s.pc < memSize) :
    u.Inv := by
  have shorter {S T : List Word} (popped : s.stack = S ++ T) : (s.setStack S).Inv :=
    hs.setStack (withinCapacity_of_le hs.stackFits (by simp [popped]))
  cases h with
  | stack _ _ fits => exact hs.setStack (fits hs.stackFits)
  | halt => exact hs.setPaused true
  | store popped _ ha => exact (shorter popped).writeMemory ha _
  | @draw _ S j _ drawing len onDisplay =>
    have kept : S.length ≤ s.stack.length := by
      rcases drawing with rfl | ⟨code, rfl⟩
      · simp only [netChange] at len
        omega
      · simp only [netChange] at len
        split at len <;> omega
    exact (hs.setStack (withinCapacity_of_le hs.stackFits kept)).writeDisplay onDisplay _
  | jump popped => exact shorter popped
  | call popped room =>
    refine (shorter popped).setCallStack (fun f hf => ?_) ?_
    · rcases List.mem_append.1 hf with hf | hf
      · exact hs.frames f hf
      · rw [List.mem_singleton.1 hf]
        exact inMemory
    · rw [List.length_append]
      exact withinCapacity_succ hs.callStackFits room
  | @ret C f popped =>
    refine hs.setCallStack (fun g hg => hs.frames g (by simp [popped, hg])) ?_
    exact withinCapacity_of_le hs.callStackFits (by simp [popped])

theorem Ends.inv {i : Instr} {t : State} (h : Ends s i t) (hs : s.Inv) (noFault : s.fault = none)
    (inMemory : s.pc < memSize) : t.Inv := by
  cases h with
  | completes done => exact (done.inv hs inMemory).setPc (done.fault_eq.trans noFault) _
  | faults _ len => exact (hs.setStack (withinCapacity_of_le hs.stackFits len)).takeFault _

theorem step_inv {t : State} (hs : s.Inv) (h : step s = .next t) : t.Inv := by
  obtain ⟨noFault, -, ⟨i, hi, ends⟩ | ⟨k, -, rfl⟩⟩ := step_ends h
  · exact ends.inv hs noFault (pc_lt_of_fetch hi)
  · exact hs.takeFault k

theorem construct_inv {c : Config} {image : List Byte} {t : State} (h : construct c image = some t) : t.Inv := by
  unfold construct at h
  split at h
  · cases h
    exact
      { memory := writeBytes_wf image 0 (Sparse.wf_nil memSize)
        display := Sparse.wf_nil _
        frames := nofun
        pcFits := Nat.two_pow_pos _
        faultAddr := nofun
        stackFits := by cases c.opStackMax <;> simp [withinCapacity, State.reset]
        callStackFits := by cases c.callStackMax <;> simp [withinCapacity, State.reset] }
  · cases h

theorem serveStep_inv (hs : s.Inv) : (serveStep s).2.Inv := by
  unfold serveStep
  split
  · split <;> exact step_inv hs ‹_›
  · exact hs
  · exact hs

/-- Settles O45: `step_ends` leaves the seven kinds of effect, each a composition of updates that keep the invariant. -/
theorem stepKeepsTheInvariant : Obligations.StepKeepsTheInvariant := fun _ _ => step_inv

/-- Settles O46: a construction establishes the invariant, a step and a stop keep it. -/
theorem requestsKeepTheInvariant : Obligations.RequestsKeepTheInvariant := by
  intro r s hs
  cases r with
  | construct image w h =>
    simp only [serve]
    split
    · exact construct_inv ‹_›
    · exact hs
  | step => exact serveStep_inv hs
  | stop => exact hs.setPaused true
  | stopWithStep => exact serveStep_inv (hs.setPaused true)

/-- Settles O13: the state after reset is a construction with no image. -/
theorem resetMeetsTheInvariant : Obligations.ResetMeetsTheInvariant :=
  construct_inv (c := defaultConfig) (image := []) rfl

end Sys2Proof.Machine
end

section
/-! SUPPORT. What every step can change: memory, the paused flag, `pc` and the length of the operand stack.  One lemma
says it for the seven kinds of effect, and the statement about steps follows. -/

namespace Sys2Proof.Machine

variable {s t u : State} {i : Instr} {n : Nat}

/-! ## Faults and completions told apart by the latch -/

/-- An execution that raised no fault completed. -/
theorem Ends.completes_of_noFault (h : Ends s i t) (noFault : t.fault = none) :
    ∃ u n, Completes s i u n ∧ t = u.setPc (Config.pcValue u.config n) := by
  cases h with
  | completes done => exact ⟨_, _, done, rfl⟩
  | faults => simp at noFault

theorem Completes.config_eq (h : Completes s i u n) : u.config = s.config := by cases h <;> rfl

/-! ## Memory -/

/-- `StoreU8` outside the window is the one instruction that writes memory. -/
theorem Completes.memory_changed {a : Nat} (h : Completes s i u n) (ne : Sparse.read u.memory a ≠ Sparse.read s.memory a) :
    i = .storeU8 ∧ a < memSize ∧ ¬ (displayBase ≤ a ∧ a < displayLimit) ∧
      ∃ S value addr, s.stack = S ++ [value, addr] ∧ addr.toInt = (a : Int) := by
  cases h with
  | @store S value addr b popped target inMemory noWindow =>
    obtain rfl : a = b := by
      by_contra hab
      exact ne (Sparse.read_write_ne _ hab)
    exact ⟨rfl, inMemory, noWindow, S, value, addr, popped, target⟩
  | _ => exact absurd rfl ne

/-- Settles O49: a fault leaves memory, and of the kinds of effect only the store to memory writes it. -/
theorem onlyStoreU8WritesMemory : Obligations.OnlyStoreU8WritesMemory := by
  intro s t a h ne
  obtain ⟨noFault, -, ⟨i, hi, ends⟩ | ⟨k, -, rfl⟩⟩ := step_ends h
  · cases ends with
    | completes done =>
      obtain ⟨rfl, inMemory, noWindow, found⟩ := done.memory_changed ne
      exact ⟨hi, done.fault_eq.trans noFault, inMemory, noWindow, found⟩
    | faults => exact absurd rfl ne
  · exact absurd rfl ne

/-! ## The paused flag -/

theorem Completes.paused_iff (h : Completes s i u n) (running : s.paused = false) : u.paused = true ↔ i = .halt := by
  cases h with
  | halt => simp
  | stack only => simpa [running] using fun e : i = .halt => by simp [e, stackOnly] at only
  | draw drawing => simpa [running] using fun e : i = .halt => by simp [e] at drawing
  | _ => simp [running]

/-- Settles O50: a ready engine runs unpaused, `Halt` always completes, and no other effect writes the flag. -/
theorem onlyHaltPauses : Obligations.OnlyHaltPauses := by
  intro s t h
  obtain ⟨-, running, ⟨i, hi, ends⟩ | ⟨k, hk, rfl⟩⟩ := step_ends h
  · rw [hi, Except.ok.injEq]
    cases ends with
    | completes done => exact done.paused_iff running
    | faults notHalt => simp [running, notHalt]
  · simp [running, hk]

/-! ## The operand stack -/

theorem Completes.stack_length (h : Completes s i u n) : (u.stack.length : Int) = s.stack.length + netChange i := by
  cases h with
  | stack _ len => exact len
  | draw _ len => exact len
  | store popped | jump popped | call popped => simp [popped, netChange]
  | halt | ret => simp [netChange]

/-- Settles O52: `netChange` is the table, and the write of `pc` that ends a step leaves the stack. -/
theorem netChangeOfTheOperandStack : Obligations.NetChangeOfTheOperandStack := by
  intro s t i hi h noFault
  obtain ⟨-, -, ⟨j, hj, ends⟩ | ⟨k, hk, -⟩⟩ := step_ends h
  · obtain rfl : i = j := by simpa [hi] using hj
    obtain ⟨u, n, done, rfl⟩ := ends.completes_of_noFault noFault
    exact done.stack_length.trans (by cases i <;> rfl)
  · simp [hi] at hk

/-! ## The program counter -/

/-- R116's default: past the instruction's bytes. -/
theorem Completes.target_advance (h : Completes s i u n) (notJump : i ≠ .jump) (notCall : i ≠ .call) (notRet : i ≠ .ret) :
    n = s.pc + i.mnemonic.length := by
  cases h with
  | jump => exact absurd rfl notJump
  | call => exact absurd rfl notCall
  | ret => exact absurd rfl notRet
  | _ => rfl

theorem Completes.target_jump (h : Completes s .jump u n) : ∃ S dest, s.stack = S ++ [dest] ∧ n = jumpTarget dest := by
  cases h with
  | stack only => cases only
  | draw drawing => simp at drawing
  | jump popped => exact ⟨_, _, popped, rfl⟩

theorem Completes.target_call (h : Completes s .call u n) : ∃ S dest, s.stack = S ++ [dest] ∧ n = callTarget dest := by
  cases h with
  | stack only => cases only
  | draw drawing => simp at drawing
  | call popped => exact ⟨_, _, popped, rfl⟩

theorem Completes.target_ret (h : Completes s .ret u n) : ∃ C f, s.callStack = C ++ [f] ∧ n = f.ret + 1 := by
  cases h with
  | stack only => cases only
  | draw drawing => simp at drawing
  | ret popped => exact ⟨_, _, popped, rfl⟩

/-- A counter holds a number of fewer bits as it is. -/
theorem pcValue_of_lt {c : Config} {b n : Nat} (hn : n < 2 ^ b) (hb : b ≤ c.pcBits) : Config.pcValue c n = n :=
  Nat.mod_eq_of_lt (Nat.lt_of_lt_of_le hn (Nat.pow_le_pow_right (by omega) hb))

theorem jumpTarget_lt (dest : Word) : jumpTarget dest < 2 ^ 64 := by
  have := dest.toInt_lt
  unfold jumpTarget
  omega

theorem jumpTarget_toInt (dest : Word) : (jumpTarget dest : Int) = max dest.toInt 0 :=
  Int.toNat_of_nonneg (le_max_right _ _)

theorem callTarget_lt (dest : Word) : callTarget dest < 2 ^ 64 := dest.isLt

theorem callTarget_toInt (dest : Word) : (callTarget dest : Int) = dest.toInt % 2 ^ 64 := by
  have pattern : dest.toInt % 2 ^ 64 = (dest.toNat : Int) % 2 ^ 64 := by
    rw [BitVec.toInt_eq_toNat_bmod]
    exact Int.bmod_emod
  have lt := callTarget_lt dest
  rw [pattern, ← callTarget]
  omega

theorem mnemonic_length_le (m : Mnemonic) : m.length ≤ maxInstrBytes := by cases m <;> decide

/-- Settles O51: a fault keeps `pc`; a completed instruction writes its target, which the widths named hold as it is. -/
theorem howPcChanges : Obligations.HowPcChanges := by
  intro s t i hs hi h
  obtain ⟨ready, -, ⟨j, hj, ends⟩ | ⟨k, hk, -⟩⟩ := step_ends h
  swap
  · simp [hi] at hk
  obtain rfl : i = j := by simpa [hi] using hj
  have inMemory : s.pc < 65536 := pc_lt_of_fetch hi
  cases ends with
  | faults => exact ⟨fun _ => rfl, by simp⟩
  | @completes u n done =>
    refine ⟨fun fault => absurd (done.fault_eq.trans ready) fault, fun _ => ?_⟩
    rw [State.setPc_pc, done.config_eq]
    refine ⟨fun notJump notCall notRet => ?_, ?_, ?_, ?_⟩
    · obtain rfl := done.target_advance notJump notCall notRet
      have : i.mnemonic.length ≤ 9 := mnemonic_length_le i.mnemonic
      exact ⟨rfl, pcValue_of_lt (by omega)⟩
    · rintro rfl
      obtain ⟨S, dest, popped, rfl⟩ := done.target_jump
      exact ⟨S, dest, popped, rfl, fun wide => by rw [pcValue_of_lt (jumpTarget_lt dest) wide, jumpTarget_toInt]⟩
    · rintro rfl
      obtain ⟨S, dest, popped, rfl⟩ := done.target_call
      exact ⟨S, dest, popped, rfl, fun wide => by rw [pcValue_of_lt (callTarget_lt dest) wide, callTarget_toInt]⟩
    · rintro rfl
      obtain ⟨C, f, popped, rfl⟩ := done.target_ret
      have : f.ret < 65536 := hs.frames f (by simp [popped])
      exact ⟨C, f, popped, rfl, pcValue_of_lt (by omega)⟩

end Sys2Proof.Machine
end

section
/-! SUPPORT. The canonical form of memory is unique: it lists exactly the indexes that read other than 0. -/

namespace Sys2Proof.Machine

variable {w bound : Nat}

/-- In the canonical form a cell is listed exactly when it reads as its value, which is not 0. -/
theorem Sparse.mem_iff_read {m : Sparse w} (hm : Sparse.wf bound m) (a : Nat) (x : BitVec w) :
    (a, x) ∈ m ↔ x ≠ 0#w ∧ Sparse.read m a = x := by
  induction m with
  | nil => exact ⟨fun h => absurd h List.not_mem_nil, fun h => absurd h.2.symm h.1⟩
  | cons c m ih =>
    obtain ⟨k, y⟩ := c
    obtain ⟨hlt, hy, -, hm'⟩ := Sparse.wf_cons.1 hm
    rw [List.mem_cons, Sparse.read_cons, Prod.mk.injEq]
    by_cases hk : a = k
    · have : (a, x) ∉ m := fun hmem => absurd (hlt _ hmem) (by simp [hk])
      rw [if_pos hk]
      constructor
      · rintro (⟨-, rfl⟩ | hmem)
        · exact ⟨hy, rfl⟩
        · contradiction
      · exact fun h => .inl ⟨hk, h.2.symm⟩
    · simp [hk, ih hm']

/-- Contents in canonical form that read alike are equal: they list the same cells, both by rising index. -/
theorem Sparse.ext_read {m n : Sparse w} (hm : Sparse.wf bound m) (hn : Sparse.wf bound n)
    (h : ∀ a < bound, Sparse.read m a = Sparse.read n a) : m = n := by
  have read_eq (a : Nat) : Sparse.read m a = Sparse.read n a := by
    by_cases ha : a < bound
    · exact h a ha
    · rw [Sparse.read_eq_zero_of_ge hm (not_lt.1 ha), Sparse.read_eq_zero_of_ge hn (not_lt.1 ha)]
  have nodup {l : Sparse w} (hl : Sparse.wf bound l) : l.Nodup := hl.1.imp fun hlt e => absurd hlt (by simp [e])
  have perm : m.Perm n := (List.perm_ext_iff_of_nodup (nodup hm) (nodup hn)).2 fun ⟨a, x⟩ => by
    rw [Sparse.mem_iff_read hm, Sparse.mem_iff_read hn, read_eq]
  exact perm.eq_of_pairwise (fun c d _ _ hcd hdc => absurd hcd (Nat.lt_asymm hdc)) hm.1 hn.1

/-- Settles O56: memory is one of the contents that `Sparse.ext_read` speaks of. -/
theorem memoriesThatReadAlikeAreEqual : Obligations.MemoriesThatReadAlikeAreEqual := fun _ _ => Sparse.ext_read

end Sys2Proof.Machine
end

section
/-! SUPPORT. The content of the display is never read (R38): one rule per micro-operation, then every instruction, every
step and every run, from two states that differ in the display alone. -/

namespace Sys2Proof.Machine

/-- Whatever next state `r` answers, `r'` answers it with some display. -/
def SameButDisplay (r r' : Result) : Prop := Post (fun t => ∃ d, r' = .next (t.setDisplay d)) r

section
variable {s : State} {d : Display}

/-! ## One rule for each micro-operation -/

theorem same_raise {k : FaultKind} : SameButDisplay (raise k s) (raise k (s.setDisplay d)) := post_raise ⟨d, rfl⟩

theorem same_goto {n : Nat} : SameButDisplay (goto n s) (goto n (s.setDisplay d)) := post_goto ⟨d, rfl⟩

theorem same_advance {m : Mnemonic} : SameButDisplay (advance m s) (advance m (s.setDisplay d)) := same_goto

/-- A test that does not look at the display. -/
theorem same_ite {p : Prop} [Decidable p] {a a' b b' : Result} (ha : SameButDisplay a a') (hb : SameButDisplay b b') :
    SameButDisplay (if p then a else b) (if p then a' else b') := by
  split
  · exact ha
  · exact hb

theorem same_popOr {k : FaultKind} {f : Word → State → Result}
    (h : ∀ v u d, SameButDisplay (f v u) (f v (u.setDisplay d))) :
    SameButDisplay (popOr k s f) (popOr k (s.setDisplay d) f) := by
  simp only [popOr, State.setDisplay_stack]
  cases s.stack.getLast? with
  | none => exact same_raise
  | some v => exact h v _ d

theorem same_pop {f : Word → State → Result} (h : ∀ v u d, SameButDisplay (f v u) (f v (u.setDisplay d))) :
    SameButDisplay (pop s f) (pop (s.setDisplay d) f) := same_popOr h

theorem same_popArg {name : ArgName} {f : Word → State → Result}
    (h : ∀ v u d, SameButDisplay (f v u) (f v (u.setDisplay d))) :
    SameButDisplay (popArg name s f) (popArg name (s.setDisplay d) f) := same_popOr h

theorem same_readTop {f f' : Word → Result} (h : ∀ v, SameButDisplay (f v) (f' v)) :
    SameButDisplay (readTop s f) (readTop (s.setDisplay d) f') := by
  simp only [readTop, State.setDisplay_stack]
  cases s.stack.getLast? with
  | none => exact same_raise
  | some v => exact h v

theorem same_readAt {imm : Word} {f f' : Word → Result} (h : ∀ v, SameButDisplay (f v) (f' v)) :
    SameButDisplay (readAt imm s f) (readAt imm (s.setDisplay d) f') := by
  refine same_ite same_raise ?_
  simp only [State.setDisplay_stack]
  cases s.stack[(dupeIndex s.stack.length imm).toNat]? with
  | none => exact same_raise
  | some v => exact h v

theorem same_push {v : Word} {f : State → Result} (h : ∀ u d, SameButDisplay (f u) (f (u.setDisplay d))) :
    SameButDisplay (push v s f) (push v (s.setDisplay d) f) := same_ite same_raise (h _ d)

theorem same_csPush {v : Frame} {f : State → Result} (h : ∀ u d, SameButDisplay (f u) (f (u.setDisplay d))) :
    SameButDisplay (csPush v s f) (csPush v (s.setDisplay d) f) := same_ite same_raise (h _ d)

theorem same_csPop {f : Frame → State → Result} (h : ∀ v u d, SameButDisplay (f v u) (f v (u.setDisplay d))) :
    SameButDisplay (csPop s f) (csPop (s.setDisplay d) f) := by
  simp only [csPop, State.setDisplay_callStack]
  cases s.callStack.getLast? with
  | none => exact same_raise
  | some v => exact h v _ d

theorem same_memRead {addr : Word} {f f' : Byte → Result} (h : ∀ b, SameButDisplay (f b) (f' b)) :
    SameButDisplay (memRead addr s f) (memRead addr (s.setDisplay d) f') := same_ite same_raise (h _)

/-- The two displays may differ after the write too, each being its own display with the cell written. -/
theorem same_dispWrite {j : Int} {c : Pixel} {f : State → Result}
    (h : ∀ u d, SameButDisplay (f u) (f (u.setDisplay d))) :
    SameButDisplay (dispWrite j c s f) (dispWrite j c (s.setDisplay d) f) :=
  same_ite (h (s.setDisplay _) (Sparse.write d j.toNat c)) same_raise

theorem same_memWrite {addr : Word} {b : Byte} {f : State → Result}
    (h : ∀ u d, SameButDisplay (f u) (f (u.setDisplay d))) :
    SameButDisplay (memWrite addr b s f) (memWrite addr b (s.setDisplay d) f) := by
  unfold memWrite
  cases storeTarget addr with
  | outside => exact same_raise
  | cell j => exact same_dispWrite h
  | byte a => exact h _ d

theorem same_arith {n : Int} {f f' : Word → Result} (h : ∀ v, SameButDisplay (f v) (f' v)) :
    SameButDisplay (arith n s f) (arith n (s.setDisplay d) f') := same_ite same_raise (h _)

theorem same_divide {b a : Word} {f f' : Word → Result} (h : ∀ v, SameButDisplay (f v) (f' v)) :
    SameButDisplay (divide b a s f) (divide b a (s.setDisplay d) f') :=
  same_ite same_raise (same_ite same_raise (h _))

end

/-! ## Instructions, steps and runs -/

theorem exec_sameButDisplay (i : Instr) (s : State) (d : Display) :
    SameButDisplay (exec i s) (exec i (s.setDisplay d)) := by
  have advances (m : Mnemonic) (u : State) (d : Display) :
      SameButDisplay (advance m u) (advance m (u.setDisplay d)) := same_advance
  cases i with
  | nop => exact same_advance
  | halt => exact same_advance
  | push imm => exact same_push (advances _)
  | pop => exact same_pop fun _ => advances _
  | add =>
    simp only [exec, execAdd]
    exact same_pop fun _ _ _ => same_pop fun _ _ _ => same_arith fun _ => same_push (advances _)
  | mul =>
    simp only [exec, execMul]
    exact same_pop fun _ _ _ => same_pop fun _ _ _ => same_arith fun _ => same_push (advances _)
  | sub =>
    simp only [exec, execSub]
    exact same_pop fun _ _ _ => same_pop fun _ _ _ => same_arith fun _ => same_push (advances _)
  | div =>
    simp only [exec, execDiv]
    exact same_pop fun _ _ _ => same_pop fun _ _ _ => same_divide fun _ => same_push (advances _)
  | jump =>
    simp only [exec, execJump]
    exact same_pop fun _ _ _ => same_goto
  | loadU8 =>
    simp only [exec, execLoadU8]
    exact same_pop fun _ _ _ => same_memRead fun _ => same_push (advances _)
  | storeU8 =>
    simp only [exec, execStoreU8]
    exact same_pop fun _ _ _ => same_pop fun _ _ _ => same_memWrite (advances _)
  | swap =>
    simp only [exec, execSwap]
    exact same_pop fun _ _ _ => same_pop fun _ _ _ => same_push fun _ _ => same_push (advances _)
  | dupe =>
    simp only [exec, execDupe]
    exact same_readTop fun _ => same_push (advances _)
  | dupeAt imm =>
    simp only [exec, execDupeAt]
    exact same_readAt fun _ => same_push (advances _)
  | interrupt code =>
    simp only [exec, execInterrupt]
    refine same_ite ?_ (same_ite ?_ same_raise)
    · exact same_popArg fun _ _ _ => same_popArg fun _ _ _ => same_dispWrite (advances _)
    · exact same_popArg fun _ _ _ => same_popArg fun _ _ _ => same_popArg fun _ _ _ => same_dispWrite (advances _)
  | call =>
    simp only [exec, execCall]
    exact same_pop fun _ _ _ => same_csPush fun _ _ => same_goto
  | ret =>
    simp only [exec, execRet]
    exact same_csPop fun _ _ _ => same_goto

theorem step_sameButDisplay (s : State) (d : Display) : SameButDisplay (step s) (step (s.setDisplay d)) := by
  intro t h
  obtain ⟨ready, ⟨i, hi, h⟩ | ⟨k, hk, rfl⟩⟩ := step_eq_next.1 h
  · obtain ⟨d', h'⟩ := exec_sameButDisplay i s d t h
    exact ⟨d', step_eq_next.2 ⟨ready, .inl ⟨i, hi, h'⟩⟩⟩
  · exact ⟨d, step_eq_next.2 ⟨ready, .inr ⟨k, hk, rfl⟩⟩⟩

/-- A run of one step more is a step and the rest of the run. -/
theorem run_succ_eq_next {M : Host.Core} {k : Nat} {s t : M.State} :
    M.run (k + 1) s = .next t ↔ ∃ u, M.step s = .next u ∧ M.run k u = .next t := by
  rw [Host.Core.run]
  cases M.step s <;> simp

theorem run_sameButDisplay (k : Nat) (s : State) (d : Display) :
    SameButDisplay (Host.Core.run Sys2Proof.core k s) (Host.Core.run Sys2Proof.core k (s.setDisplay d)) := by
  induction k generalizing s d with
  | zero =>
    rintro _ ⟨⟩
    exact ⟨d, rfl⟩
  | succ k ih =>
    intro t h
    obtain ⟨u, hstep, hrun⟩ := run_succ_eq_next.1 h
    obtain ⟨d', hstep'⟩ := step_sameButDisplay s d u hstep
    obtain ⟨d'', hrun'⟩ := ih u d' t hrun
    exact ⟨d'', run_succ_eq_next.2 ⟨_, hstep', hrun'⟩⟩

/-- Settles O47, by induction on the number of steps: each step keeps two states that differ in the display alone so. -/
theorem runsDoNotReadTheDisplay : Obligations.RunsDoNotReadTheDisplay := by
  intro k s t d h
  obtain ⟨d', h'⟩ := run_sameButDisplay k s d t h
  exact ⟨t.setDisplay d', h', rfl⟩

end Sys2Proof.Machine
end

section
/-! SUPPORT. Memory and its display window (R60 to R64, R70 to R72): where a store goes and what it leaves there, loads and
fetches after it, its frame, and the window's bytes of memory, which no step changes. -/

namespace Sys2Proof.Machine

variable {s t : State} {S : List Word} {value addr : Word}

/-! ## Where a store goes, by the value of its address -/

theorem storeTarget_eq_outside (h : addr.toInt < 0 ∨ (memSize : Int) ≤ addr.toInt) : storeTarget addr = .outside :=
  if_pos h

theorem storeTarget_eq_cell (lo : (displayBase : Int) ≤ addr.toInt) (hi : addr.toInt < (displayLimit : Int)) :
    storeTarget addr = .cell (addr.toInt.toNat - displayBase) := by
  have inMemory : ¬ (addr.toInt < 0 ∨ (memSize : Int) ≤ addr.toInt) := by
    simp only [memSize, displayBase, displayLimit] at *
    omega
  rw [storeTarget, if_neg inMemory, if_pos ⟨lo, hi⟩]

/-- A store goes to a byte of memory exactly where its address is that byte's, outside the window. -/
theorem storeTarget_eq_byte_iff {a : Nat} :
    storeTarget addr = .byte a ↔ addr.toInt = (a : Int) ∧ a < memSize ∧ ¬ (displayBase ≤ a ∧ a < displayLimit) := by
  rcases storeTarget_cases addr with ⟨target, out⟩ | ⟨j, target, cell, window⟩ | ⟨b, target, byte, inMemory, noWindow⟩
  · simp only [target, reduceCtorEq, false_iff]
    omega
  · simp only [target, reduceCtorEq, false_iff]
    omega
  · simp only [target, StoreTarget.byte.injEq]
    omega

/-! ## Bytes and the values they become -/

theorem toNat_low8 (v : Word) : (low8 v).toNat = v.toNat % 256 := BitVec.toNat_setWidth 8 v

theorem toNat_zext64 (b : Byte) : (zext64 b).toNat = b.toNat := BitVec.toNat_setWidth_of_le (by decide)

/-- A byte put below a word adds to 256 times the word. -/
theorem toNat_append_byte {w : Nat} (x : BitVec w) (b : Byte) : (x ++ b).toNat = x.toNat * 256 + b.toNat := by
  rw [BitVec.toNat_append, ← Nat.shiftLeft_add_eq_or_of_lt b.isLt, Nat.shiftLeft_eq]

/-- R62's cell value: a byte times 0x01010101 is the byte four times over. -/
theorem broadcast_eq_append (b : Byte) : broadcast b = b ++ b ++ b ++ b := by
  have lt := b.isLt
  have product : (broadcast b).toNat = b.toNat * 0x01010101 := by
    rw [broadcast, BitVec.toNat_mul, BitVec.toNat_setWidth_of_le (by decide)]
    exact Nat.mod_eq_of_lt (show b.toNat * 0x01010101 < 2 ^ 32 by omega)
  have joined : (b ++ b ++ b ++ b).toNat = b.toNat * 0x01010101 := by
    simp only [toNat_append_byte]
    omega
  exact BitVec.eq_of_toNat_eq (product.trans joined.symm)

/-! ## `StoreU8` outside memory and in the window -/

theorem exec_storeU8_concat (popped : s.stack = S ++ [value, addr]) :
    exec .storeU8 s = memWrite addr (low8 value) (s.setStack S) (advance .storeU8) := by
  have outer : s.stack = (S ++ [value]) ++ [addr] := by simp [popped]
  rw [exec, execStoreU8, pop_concat outer, pop_concat rfl]
  rfl

theorem exec_storeU8_outside (popped : s.stack = S ++ [value, addr]) (target : storeTarget addr = .outside) :
    exec .storeU8 s = .next ((s.setStack S).takeFault (.memoryOutOfBounds addr)) := by
  rw [exec_storeU8_concat popped, memWrite, target]
  rfl

theorem exec_storeU8_cell {j : Nat} (popped : s.stack = S ++ [value, addr]) (target : storeTarget addr = .cell j)
    (onDisplay : j < s.config.displayCells) :
    exec .storeU8 s =
      advance .storeU8 ((s.setStack S).setDisplay (Sparse.write s.display j (broadcast (low8 value)))) := by
  have hasCell : Config.hasCell s.config j = true := hasCell_iff.2 (by omega)
  rw [exec_storeU8_concat popped, memWrite, target]
  exact if_pos hasCell

theorem exec_storeU8_noCell {j : Nat} (popped : s.stack = S ++ [value, addr]) (target : storeTarget addr = .cell j)
    (offDisplay : s.config.displayCells ≤ j) :
    exec .storeU8 s = .next ((s.setStack S).takeFault (.displayOutOfBounds j)) := by
  have noCell : ¬ Config.hasCell s.config j = true := by
    rw [hasCell_iff]
    omega
  rw [exec_storeU8_concat popped, memWrite, target]
  exact if_neg noCell

/-- Settles O34: an address outside memory is no store target, and the fault leaves the two pops done. -/
theorem storeOutsideMemoryFaults : Obligations.StoreOutsideMemoryFaults := fun _ _ _ _ popped out =>
  exec_storeU8_outside popped (storeTarget_eq_outside out)

/-- Settles O33: the address names a cell by its distance from the window's base, which the display has or has not. -/
theorem windowStoreDrawsACell : Obligations.WindowStoreDrawsACell := by
  intro s S value addr popped lo hi
  have target : storeTarget addr = .cell (addr.toInt.toNat - 0x8000) := storeTarget_eq_cell lo hi
  have index : ((addr.toInt.toNat - 0x8000 : Nat) : Int) = addr.toInt - 0x8000 := by omega
  refine ⟨fun wf onDisplay => ?_, fun offDisplay => ?_⟩
  · refine ⟨_, exec_storeU8_cell popped target (by simp only [Config.displayCells]; omega), ?_, fun i ne => ?_⟩
    · rw [State.setDisplay_display, Sparse.read_write wf, if_pos rfl, broadcast_eq_append, low8]
    · exact Sparse.read_write_ne _ ne
  · rw [← index]
    exact exec_storeU8_noCell popped target (by simp only [Config.displayCells]; omega)

/-! ## Loads and fetches after a store -/

/-- A store leaves its byte where `storeTarget` sends it to memory, and every other byte as it was. -/
theorem read_memory_of_storeU8 (hm : Memory.wf s.memory) (popped : s.stack = S ++ [value, addr])
    (h : exec .storeU8 s = .next t) (a : Nat) :
    Sparse.read t.memory a = if storeTarget addr = .byte a then low8 value else Sparse.read s.memory a := by
  rw [exec_storeU8_concat popped] at h
  rcases memWrite_eq_next.1 h with ⟨target, rfl⟩ | ⟨j, target, h⟩ | ⟨b, target, h⟩
  · simp [target]
  · rcases dispWrite_eq_next.1 h with ⟨-, rfl⟩ | ⟨-, h⟩
    · simp [target]
    · obtain rfl := advance_eq_next.1 h
      simp [target]
  · obtain rfl := advance_eq_next.1 h
    simp [target, Sparse.read_write hm, eq_comm]

/-- A store that raised no fault had an address of memory. -/
theorem inMemory_of_storeU8 (popped : s.stack = S ++ [value, addr]) (h : exec .storeU8 s = .next t)
    (noFault : t.fault = none) : 0 ≤ addr.toInt ∧ addr.toInt < (memSize : Int) := by
  by_contra out
  rw [exec_storeU8_outside popped (storeTarget_eq_outside (by omega))] at h
  cases h
  simp at noFault

/-- A load in memory, the window's addresses among them; its push follows a pop and has room. -/
theorem exec_loadU8_inMemory (popped : s.stack = S ++ [addr]) (lo : 0 ≤ addr.toInt) (hi : addr.toInt < (memSize : Int))
    (fits : withinCapacity s.config.opStackMax s.stack.length) :
    exec .loadU8 s =
      advance .loadU8 (s.setStack (S ++ [zext64 (Sparse.read s.memory addr.toInt.toNat)])) := by
  have inMemory : ¬ (addr.toInt < 0 ∨ (memSize : Int) ≤ addr.toInt) := by omega
  rw [exec, execLoadU8, pop_concat popped, memRead, if_neg inMemory,
    push_after_pop (s' := s.setStack S) fits rfl (by simp [popped])]
  rfl

/-- Settles O35: the load reads the memory that the store left, and an address is its integer. -/
theorem loadAfterStoreReadsTheStoredByte : Obligations.LoadAfterStoreReadsTheStoredByte := by
  intro s t u S U value addr addr' hm popped h _ sameMemory popped' fits lo hi
  refine ⟨_, exec_loadU8_inMemory popped' lo hi fits, ?_⟩
  have reached : storeTarget addr = .byte addr'.toInt.toNat ↔
      addr' = addr ∧ ¬ (0x8000 ≤ addr.toInt ∧ addr.toInt < 0x9000) := by
    rw [storeTarget_eq_byte_iff, ← BitVec.toInt_inj]
    simp only [memSize, displayBase, displayLimit]
    omega
  rw [toNat_zext64, sameMemory, read_memory_of_storeU8 hm popped h]
  simp only [reached]
  split
  · exact toNat_low8 value
  · rfl

/-- Settles O36: a store that did not fault wrote memory at `pc`, where a fetch reads its first byte. -/
theorem storedByteIsFetched : Obligations.StoredByteIsFetched := by
  intro s t u S value addr hm popped h noFault noWindow sameMemory atAddr
  obtain ⟨-, hi⟩ := inMemory_of_storeU8 popped h noFault
  have inMemory : u.pc < memSize := by omega
  have target : storeTarget addr = .byte u.pc :=
    storeTarget_eq_byte_iff.2 ⟨atAddr.symm, inMemory, by simp only [displayBase, displayLimit]; omega⟩
  obtain ⟨rest, bytes⟩ := fetchBytes_cons inMemory
  rw [bytes, sameMemory, read_memory_of_storeU8 hm popped h, if_pos target]
  rfl

/-! ## Every way `StoreU8` ends, from any operand stack -/

/-- From `s`, `StoreU8` ends in a fault with top cells gone, or with one display cell or one byte written. -/
inductive StoreEnds (s : State) : State → Prop
  | faults {S : List Word} {k : FaultKind} (kept : S <+: s.stack) : StoreEnds s ((s.setStack S).takeFault k)
  | cell {S : List Word} {value addr : Word} {j n : Nat} {c : Pixel} (popped : s.stack = S ++ [value, addr])
      (target : storeTarget addr = .cell j) :
      StoreEnds s (((s.setStack S).setDisplay (Sparse.write s.display j c)).setPc n)
  | byte {S : List Word} {value addr : Word} {a n : Nat} {b : Byte} (popped : s.stack = S ++ [value, addr])
      (target : storeTarget addr = .byte a) :
      StoreEnds s (((s.setStack S).setMemory (Sparse.write s.memory a b)).setPc n)

theorem exec_storeU8_ends (s : State) : Post (StoreEnds s) (exec .storeU8 s) := by
  rw [exec, execStoreU8]
  refine post_pop (.faults List.prefix_rfl) fun S' addr outer =>
    post_pop (.faults ⟨[addr], outer.symm⟩) fun S value inner => ?_
  have popped : s.stack = S ++ [value, addr] := by
    rw [outer, show S' = S ++ [value] from inner, List.append_assoc, List.singleton_append]
  have kept : S <+: s.stack := by simp [popped]
  intro t h
  rcases memWrite_eq_next.1 h with ⟨-, rfl⟩ | ⟨j, target, h⟩ | ⟨a, target, h⟩
  · exact .faults kept
  · rcases dispWrite_eq_next.1 h with ⟨-, rfl⟩ | ⟨-, h⟩
    · exact .faults kept
    · obtain rfl := advance_eq_next.1 h
      exact .cell popped target
  · obtain rfl := advance_eq_next.1 h
    exact .byte popped target

/-- Settles O43: of the ways `StoreU8` ends, one writes a display cell and one a byte, each the one its address names. -/
theorem frameOfStoreU8 : Obligations.FrameOfStoreU8 := by
  intro s t h
  cases exec_storeU8_ends s t h with
  | @faults S k kept =>
    exact ⟨fun _ _ _ _ => rfl, fun _ _ _ _ => rfl, fun _ => ⟨rfl, rfl⟩, kept, rfl, rfl, rfl, .inr ⟨k, rfl, rfl⟩⟩
  | @cell S value addr j n c popped target =>
    refine ⟨fun _ _ _ _ => rfl, fun addr' i top other => ?_, by simp [popped], by simp [popped], rfl, rfl, rfl, .inl rfl⟩
    obtain rfl : addr = addr' := by simpa [popped] using top
    exact Sparse.read_write_ne _ fun e => other (by rw [target, e])
  | @byte S value addr a n b popped target =>
    refine ⟨fun addr' i top other => ?_, fun _ _ _ _ => rfl, by simp [popped], by simp [popped], rfl, rfl, rfl, .inl rfl⟩
    obtain rfl : addr = addr' := by simpa [popped] using top
    exact Sparse.read_write_ne _ fun e => other (by rw [target, e])

/-! ## The window's bytes through steps and runs -/

/-- Settles O59: the one instruction that writes memory writes it outside the window. -/
theorem stepKeepsTheWindowBytes : Obligations.StepKeepsTheWindowBytes := by
  intro s t a h lo hi
  by_contra ne
  obtain ⟨-, -, -, noWindow, -⟩ := onlyStoreU8WritesMemory s t a h ne
  exact noWindow ⟨lo, hi⟩

/-- What every step keeps, every run keeps. -/
theorem run_keeps {P : State → Prop} (keeps : ∀ s t, step s = .next t → P s → P t) (k : Nat) (hs : P s)
    (h : Host.Core.run Sys2Proof.core k s = .next t) : P t := by
  induction k generalizing s with
  | zero =>
    cases h
    exact hs
  | succ k ih =>
    obtain ⟨u, hstep, hrun⟩ := run_succ_eq_next.1 h
    exact ih (keeps s u hstep hs) hrun

/-- A construction leaves the image in memory, and 0 beyond it. -/
theorem read_memory_of_construct {c : Config} {image : List Byte} (h : construct c image = some s) (a : Nat) :
    Sparse.read s.memory a = (image[a]?).getD 0#8 := by
  unfold construct at h
  split at h
  case isTrue fit =>
    cases h
    simpa using read_writeBytes image 0 (Sparse.wf_nil memSize) (by omega) a
  case isFalse => cases h

/-- Settles O48: a construction puts the image's bytes in the window, and every step keeps them. -/
theorem windowBytesStayAsConstructed : Obligations.WindowBytesStayAsConstructed := by
  intro c image k s t a built run lo hi
  refine run_keeps (P := fun u => Sparse.read u.memory a = (image[a]?).getD 0#8) (fun u v h hu => ?_) k
    (read_memory_of_construct built a) run
  exact (stepKeepsTheWindowBytes u v a h lo hi).trans hu

end Sys2Proof.Machine
end

section
/-! SUPPORT. The encoding (spec/30_encoding.md): the opcode bytes of a well-formed map, the one rule that says when bytes
decode to an instruction and what is left of them, and the statements about decoder and encoder, which follow from it. -/

namespace Sys2Proof.Machine

variable {map : OpcodeMap} {op : Byte} {m : Mnemonic} {i : Instr} {imm rest : List Byte}

/-! ## The opcode byte -/

/-- R91: a well-formed map leaves the bytes from 0x11 on without a mnemonic, and no others. -/
theorem decodeOpcode_eq_none_iff (h : OpcodeMap.wf map) : decodeOpcode map op = none ↔ 0x11 ≤ op.toNat := by
  rw [decodeOpcode, List.getElem?_eq_none_iff, h.length]

/-- R92: an instruction is rejected for its opcode byte exactly when that byte has no mnemonic. -/
theorem decode_eq_invalidOpcode_iff :
    decode map (op :: rest) = .error (.invalidOpcode op) ↔ decodeOpcode map op = none := by
  cases hd : decodeOpcode map op with
  | none => simp [decode, hd]
  | some m =>
    simp only [decode, hd, reduceCtorEq, iff_false]
    split <;> simp

/-- Settles O3: the map has 17 positions, and encoding undoes the opcode decode and is undone by it. -/
theorem opcodeDecodeIsTotal : Obligations.OpcodeDecodeIsTotal := by
  intro map wf
  refine ⟨fun op low => ?_, fun m => ⟨encodeOpcode map m, ?_, decodeOpcode_encodeOpcode wf m⟩,
    fun op high => (decodeOpcode_eq_none_iff wf).2 high,
    fun op rest => decode_eq_invalidOpcode_iff.trans (decodeOpcode_eq_none_iff wf)⟩
  · have valid : decodeOpcode map op ≠ none := fun illegal => by
      have := (decodeOpcode_eq_none_iff wf).1 illegal
      omega
    obtain ⟨m, hd⟩ := Option.ne_none_iff_exists'.1 valid
    exact ⟨m, hd, fun op' hd' =>
      (encodeOpcode_of_decodeOpcode wf hd').symm.trans (encodeOpcode_of_decodeOpcode wf hd)⟩
  · by_contra high
    have illegal := (decodeOpcode_eq_none_iff wf).2 (show 0x11 ≤ (encodeOpcode map m).toNat by omega)
    simp [decodeOpcode_encodeOpcode wf m] at illegal

/-! ## What decodes, and to what -/

/-- R82 to R91: bytes decode exactly when their opcode byte has a mnemonic and its immediate bytes follow; the instruction
is that mnemonic with their little-endian value. -/
theorem decode_eq_ok_iff {bytes : List Byte} :
    decode map (op :: bytes) = .ok (i, rest) ↔
      ∃ m imm, decodeOpcode map op = some m ∧ imm.length = m.immBytes ∧ bytes = imm ++ rest ∧
        i = m.withImmediate (leValue imm) := by
  constructor
  · intro h
    cases hd : decodeOpcode map op with
    | none => simp [decode, hd] at h
    | some m =>
      simp only [decode, hd] at h
      split at h
      case isTrue => cases h
      case isFalse enough =>
        cases h
        exact ⟨m, bytes.take m.immBytes, rfl, by simpa using enough, (List.take_append_drop _ _).symm, rfl⟩
  · rintro ⟨m, imm, hd, len, rfl, rfl⟩
    simp [decode, hd, ← len]

theorem decode_append (hd : decodeOpcode map op = some m) (len : imm.length = m.immBytes) :
    decode map (op :: (imm ++ rest)) = .ok (m.withImmediate (leValue imm), rest) :=
  decode_eq_ok_iff.2 ⟨m, imm, hd, len, rfl, rfl⟩

/-- Settles O4: the two parts a decoded byte string has after its opcode byte are the immediate and the rest. -/
theorem lengthIsAFunctionOfTheOpcode : Obligations.LengthIsAFunctionOfTheOpcode := by
  refine ⟨fun m => by cases m <;> rfl, fun map op bytes rest i h => ?_⟩
  obtain ⟨m, imm, hd, len, rfl, rfl⟩ := decode_eq_ok_iff.1 h
  simp only [Mnemonic.withImmediate_mnemonic, List.length_append, Mnemonic.length]
  exact ⟨hd, by omega⟩

/-- G1: which half of the 64-bit values are negative, by the byte of highest address. -/
theorem toInt_of_toNat_eq_add (word : Word) {low high : Nat} (value : word.toNat = low + 2 ^ 56 * high)
    (fits : low < 2 ^ 56) :
    word.toInt = if high < 0x80 then (word.toNat : Int) else (word.toNat : Int) - 2 ^ 64 := by
  rw [BitVec.toInt_eq_toNat_cond]
  split <;> split <;> omega

/-- R85: eight bytes written out, as the number they hold. -/
theorem toNat_ofNat_leValue_eight (b0 b1 b2 b3 b4 b5 b6 b7 : Byte) :
    (BitVec.ofNat 64 (leValue [b0, b1, b2, b3, b4, b5, b6, b7])).toNat =
      b0.toNat + 2 ^ 8 * b1.toNat + 2 ^ 16 * b2.toNat + 2 ^ 24 * b3.toNat + 2 ^ 32 * b4.toNat +
        2 ^ 40 * b5.toNat + 2 ^ 48 * b6.toNat + 2 ^ 56 * b7.toNat := by
  have fits : leValue [b0, b1, b2, b3, b4, b5, b6, b7] < 2 ^ 64 := by
    simpa using leValue_lt [b0, b1, b2, b3, b4, b5, b6, b7]
  rw [BitVec.toNat_ofNat, Nat.mod_eq_of_lt fits]
  simp only [leValue]
  omega

/-- Settles O5: the immediate is the number its bytes hold, and its sign is the top bit of the last of them. -/
theorem immediatesAreLittleEndian : Obligations.ImmediatesAreLittleEndian := by
  intro map op rest
  refine ⟨fun b0 b1 b2 b3 b4 b5 b6 b7 => ?_, fun code hd => ?_⟩
  · have value := toNat_ofNat_leValue_eight b0 b1 b2 b3 b4 b5 b6 b7
    refine ⟨_, value, toInt_of_toNat_eq_add _ value (by omega), fun hd => ?_, fun hd => ?_⟩ <;>
      exact decode_append (imm := [b0, b1, b2, b3, b4, b5, b6, b7]) hd rfl
  · simpa [leValue, Mnemonic.withImmediate] using decode_append (imm := [code]) (rest := rest) hd rfl

/-- Settles O1: fixed words evaluate, and no byte from 0x11 on has a mnemonic. -/
theorem decodeReadsTheSpecsWords : Obligations.DecodeReadsTheSpecsWords := by
  refine ⟨rfl, rfl, rfl, rfl, rfl, rfl, rfl, rfl, rfl, rfl, rfl, rfl, rfl, rfl, rfl, rfl, rfl, rfl, rfl, rfl, rfl,
    rfl, rfl, fun op high => ?_⟩
  exact decode_eq_invalidOpcode_iff.2 ((decodeOpcode_eq_none_iff defaultOpcodeMap_wf).2 high)

/-! ## Decoder and encoder -/

/-- R96: an encoded instruction decodes to itself, whatever bytes follow it. -/
theorem decode_encode_append (h : OpcodeMap.wf map) (i : Instr) (rest : List Byte) :
    decode map (encode map i ++ rest) = .ok (i, rest) := by
  have value : leValue (leBytes i.mnemonic.immBytes i.immediate) = i.immediate := by
    rw [leValue_leBytes, Nat.mod_eq_of_lt i.immediate_lt]
  rw [encode, List.cons_append, decode_append (decodeOpcode_encodeOpcode h _) (leBytes_length ..), value,
    Instr.withImmediate_immediate]

/-- R96: the instruction that bytes decode to encodes as those bytes. -/
theorem encode_withImmediate_leValue (h : OpcodeMap.wf map) (hd : decodeOpcode map op = some m)
    (len : imm.length = m.immBytes) : encode map (m.withImmediate (leValue imm)) = op :: imm := by
  have fits : leValue imm < 256 ^ m.immBytes := len ▸ leValue_lt imm
  rw [encode, Mnemonic.withImmediate_mnemonic, Mnemonic.withImmediate_immediate m fits,
    encodeOpcode_of_decodeOpcode h hd, ← len, leBytes_leValue]

theorem encode_injective (h : OpcodeMap.wf map) : Function.Injective (encode map) := by
  intro i j same
  have decoded := decode_encode_append h i []
  rw [same, decode_encode_append h j []] at decoded
  cases decoded
  rfl

/-- Settles O2: opcode byte and immediate bytes each round-trip, in both directions. -/
theorem encodingRoundTrip : Obligations.EncodingRoundTrip := by
  intro map wf
  refine ⟨fun op m imm hd total => ?_, decode_encode_append wf, fun _ _ same => encode_injective wf same⟩
  have len : imm.length = m.immBytes := Nat.add_left_cancel total
  refine ⟨m.withImmediate (leValue imm), m.withImmediate_mnemonic _, ?_, encode_withImmediate_leValue wf hd len⟩
  simpa using decode_append (rest := []) hd len

end Sys2Proof.Machine
end

section
/-! SUPPORT. The step cycle (spec/40_step_cycle.md): what a step of a ready engine answers and what the host is told of it,
the faults of fetching, what a fault leaves of the operand stack, and the requests that find the engine not ready. -/

namespace Sys2Proof.Machine

variable {s t : State} {i : Instr} {k : FaultKind}

/-! ## The answer to a step request, by what the engine finds -/

theorem step_of_fetch_ok (ready : s.stepReady = true) (h : fetch s = .ok i) : step s = exec i s := by
  simp [step, ready, h]

theorem step_of_fetch_error (ready : s.stepReady = true) (h : fetch s = .error k) : step s = .next (s.takeFault k) := by
  simp [step, ready, h, raise]

theorem step_of_not_ready (unready : s.stepReady = false) : step s = notReady s := by
  simp [step, unready]

/-- R119: a ready engine always has a next state. -/
theorem step_answers (ready : s.stepReady = true) : Answers (step s) := by
  cases h : fetch s with
  | ok i => exact step_of_fetch_ok ready h ▸ exec_answers i s
  | error k => exact ⟨_, step_of_fetch_error ready h⟩

theorem serveStep_of_noFault (h : step s = .next t) (noFault : t.fault = none) : serveStep s = (.ok, t) := by
  simp [serveStep, h, noFault]

theorem serveStep_of_fault {r : FaultRecord} (h : step s = .next t) (fault : t.fault = some r) :
    serveStep s = (.fault r, t) := by
  simp [serveStep, h, fault]

theorem serveStep_of_not_ready (unready : s.stepReady = false) : serveStep s = (.refused, s) := by
  rw [serveStep, step_of_not_ready unready, notReady]
  cases s.fault <;> rfl

/-! ## Fetching -/

theorem decode_eq_noImmediate {map : OpcodeMap} {op : Byte} {m : Mnemonic} {rest : List Byte}
    (hd : decodeOpcode map op = some m) (short : rest.length < m.immBytes) :
    decode map (op :: rest) = .error .noImmediate := by
  simp [decode, hd, short]

theorem fetch_of_decode_ok {rest : List Byte} (h : decode s.config.opcodeMap s.fetchBytes = .ok (i, rest)) :
    fetch s = .ok i := by
  simp [fetch, h]

theorem fetch_of_decode_error {e : DecodeError} (h : decode s.config.opcodeMap s.fetchBytes = .error e) :
    fetch s = .error (fetchFault e) := by
  simp [fetch, h]

theorem fetchBytes_eq_nil (h : memSize ≤ s.pc) : s.fetchBytes = [] :=
  List.length_eq_zero_iff.1 (by rw [fetchBytes_length]; omega)

/-- Settles O6: a step goes by what is fetched, and a fetch reads memory from `pc` on. -/
theorem stepRunsTheDecodedInstruction : Obligations.StepRunsTheDecodedInstruction := by
  intro s i rest ready h
  refine ⟨step_of_fetch_ok ready (fetch_of_decode_ok h), fetchBytes_length, fun k hk => ?_⟩
  rw [fetchBytes_length] at hk
  exact readBytes_getElem? _ _ _ k hk

/-- Settles O7: beyond memory there is no byte to decode, and from `pc` on there are nine bytes, which every instruction
has room in, or all that memory has left. -/
theorem fetchFaults : Obligations.FetchFaults := by
  intro s ready
  have faults {e : DecodeError} (h : decode s.config.opcodeMap s.fetchBytes = .error e) :
      step s = .next (s.takeFault (fetchFault e)) := step_of_fetch_error ready (fetch_of_decode_error h)
  refine ⟨fun outside => ?_, fun inside illegal => ?_, fun m inside hd cut => ?_⟩
  · exact faults (e := .noOpcode) (by rw [fetchBytes_eq_nil outside, decode])
  · obtain ⟨rest, bytes⟩ := fetchBytes_cons inside
    exact faults (e := .invalidOpcode _) (by rw [bytes]; exact decode_eq_invalidOpcode_iff.2 illegal)
  · obtain ⟨rest, bytes⟩ := fetchBytes_cons inside
    have len : rest.length + 1 = min maxInstrBytes (memSize - s.pc) := by
      rw [← fetchBytes_length, bytes, List.length_cons]
    have short : rest.length < m.immBytes := by
      have longest := mnemonic_length_le m
      simp only [Mnemonic.length, memSize] at *
      omega
    exact faults (e := .noImmediate) (by rw [bytes]; exact decode_eq_noImmediate hd short)

/-! ## What a fault leaves of the operand stack -/

/-- R243: a fault, if there was one, left the operand stack with at most top cells gone. -/
def FaultOnlyPops (s t : State) : Prop := t.fault = none ∨ t.stack <+: s.stack

section
variable {X : List Word}

/-- A pop from the cells `X` that the pops before it left. -/
theorem onlyPops_popOr {f : Word → State → Result} (left : X <+: s.stack)
    (h : ∀ S v, X = S ++ [v] → S <+: s.stack → Post (FaultOnlyPops s) (f v (s.setStack S))) :
    Post (FaultOnlyPops s) (popOr k (s.setStack X) f) := by
  intro t ht
  rcases popOr_eq_next.1 ht with ⟨-, rfl⟩ | ⟨S, v, hX, ht⟩
  · exact .inr left
  · obtain rfl : X = S ++ [v] := hX
    exact h S v rfl ((List.prefix_append S [v]).trans left) t ht

theorem onlyPops_popArg {name : ArgName} {f : Word → State → Result} (left : X <+: s.stack)
    (h : ∀ S v, S <+: s.stack → Post (FaultOnlyPops s) (f v (s.setStack S))) :
    Post (FaultOnlyPops s) (popArg name (s.setStack X) f) := onlyPops_popOr left fun S v _ => h S v

theorem onlyPops_pop {f : Word → State → Result}
    (h : ∀ S v, s.stack = S ++ [v] → S <+: s.stack → Post (FaultOnlyPops s) (f v (s.setStack S))) :
    Post (FaultOnlyPops s) (pop s f) := onlyPops_popOr (X := s.stack) List.prefix_rfl h

theorem onlyPops_pop_pop {f : Word → Word → State → Result}
    (h : ∀ S a b, s.stack = S ++ [a, b] → S <+: s.stack → Post (FaultOnlyPops s) (f b a (s.setStack S))) :
    Post (FaultOnlyPops s) (pop s fun b u => pop u fun a u => f b a u) :=
  onlyPops_pop fun S' b outer left => onlyPops_popOr left fun S a inner =>
    h S a b (by rw [outer, inner, List.append_assoc, List.singleton_append])

/-- The push that ends an instruction, over the cells `X` that its pops left. -/
theorem onlyPops_push {v : Word} {m : Mnemonic} (noFault : s.fault = none) (left : X <+: s.stack) :
    Post (FaultOnlyPops s) (push v (s.setStack X) (advance m)) :=
  post_push (fun _ => .inr left) (post_advance (.inl noFault))

theorem onlyPops_dispWrite {j : Int} {c : Pixel} {m : Mnemonic} (noFault : s.fault = none) (left : X <+: s.stack) :
    Post (FaultOnlyPops s) (dispWrite j c (s.setStack X) (advance m)) :=
  post_dispWrite (.inr left) fun _ => post_advance (.inl noFault)

end

/-- Within its capacity the operand stack has room for both pushes of `Swap`, so no instruction faults after a push. -/
theorem exec_onlyPops (i : Instr) (noFault : s.fault = none) (fits : withinCapacity s.config.opStackMax s.stack.length) :
    Post (FaultOnlyPops s) (exec i s) := by
  cases i with
  | nop | halt => exact post_advance (.inl noFault)
  | push imm => exact onlyPops_push (X := s.stack) noFault List.prefix_rfl
  | pop => exact onlyPops_pop fun S v _ _ => post_advance (.inl noFault)
  | add | mul | sub =>
    exact onlyPops_pop_pop fun S a b _ left => post_arith (fun _ => .inr left) fun r => onlyPops_push noFault left
  | div =>
    exact onlyPops_pop_pop fun S a b _ left =>
      post_divide (P := FaultOnlyPops s) (.inr left) (.inr left) fun r => onlyPops_push noFault left
  | jump => exact onlyPops_pop fun S dest _ _ => post_goto (.inl noFault)
  | loadU8 =>
    simp only [exec, execLoadU8]
    exact onlyPops_pop fun S addr _ left =>
      post_memRead (.inr left) fun b => onlyPops_push noFault left
  | storeU8 =>
    intro t h
    cases exec_storeU8_ends s t h with
    | faults kept => exact .inr kept
    | cell | byte => exact .inl noFault
  | swap =>
    refine onlyPops_pop_pop fun S a b hs left => post_push (fun _ => .inr left) (post_push (fun full => ?_) ?_)
    · exact absurd full (withinCapacity_ne_some fits (by simp [hs]))
    · exact post_advance (.inl noFault)
  | dupe => exact post_readTop (.inr List.prefix_rfl) fun S v _ => onlyPops_push (X := s.stack) noFault List.prefix_rfl
  | dupeAt imm => exact post_readAt (.inr List.prefix_rfl) fun v => onlyPops_push (X := s.stack) noFault List.prefix_rfl
  | interrupt code =>
    simp only [exec, execInterrupt]
    split
    · exact onlyPops_popArg (X := s.stack) List.prefix_rfl fun _ color left =>
        onlyPops_popArg left fun _ index left => onlyPops_dispWrite noFault left
    · split
      · exact onlyPops_popArg (X := s.stack) List.prefix_rfl fun _ color left =>
          onlyPops_popArg left fun _ y left => onlyPops_popArg left fun _ x left => onlyPops_dispWrite noFault left
      · exact post_raise (.inr List.prefix_rfl)
  | call =>
    simp only [exec, execCall]
    exact onlyPops_pop fun S dest _ left =>
      post_csPush (fun _ => .inr left) (post_goto (.inl noFault))
  | ret => exact post_csPop (.inr List.prefix_rfl) fun C f _ => post_goto (.inl noFault)

/-- Settles O8: `Ends` says what a fault keeps beside the operand stack, `FaultOnlyPops` what it leaves of that. -/
theorem readyStepCompletesOrFaults : Obligations.ReadyStepCompletesOrFaults := by
  intro s ready fits
  obtain ⟨t, h⟩ := step_answers ready
  refine ⟨t, h, ?_⟩
  obtain ⟨noFault, -, ⟨i, hi, ends⟩ | ⟨k, -, rfl⟩⟩ := step_ends h
  · have pops : FaultOnlyPops s t := exec_onlyPops i noFault fits t (step_of_fetch_ok ready hi ▸ h)
    cases ends with
    | completes done => exact ⟨done.config_eq, .inl (done.fault_eq.trans noFault)⟩
    | @faults k S _ _ =>
      have left : S <+: s.stack := pops.resolve_left (by simp)
      exact ⟨rfl, .inr ⟨k, rfl, rfl, rfl, rfl, rfl, rfl, left⟩⟩
  · exact ⟨rfl, .inr ⟨k, rfl, rfl, rfl, rfl, rfl, rfl, List.prefix_rfl⟩⟩

/-! ## What the host is told -/

theorem fault_of_exec_halt (h : exec .halt s = .next t) : t.fault = s.fault := by
  cases exec_ends .halt s t h with
  | completes done => exact done.fault_eq
  | faults notHalt => exact absurd rfl notHalt

/-- Settles O10: the latch of the next state decides the answer, and `Halt` leaves it empty. -/
theorem stepAnswersOkOrFault : Obligations.StepAnswersOkOrFault := by
  refine ⟨fun s ready => ?_, fun s ready halt => ?_⟩
  · obtain ⟨t, h⟩ := step_answers ready
    refine ⟨t, h, ?_⟩
    cases latch : t.fault with
    | none => exact .inl ⟨rfl, serveStep_of_noFault h latch⟩
    | some r => exact .inr ⟨r, rfl, serveStep_of_fault h latch⟩
  · obtain ⟨t, h⟩ := step_answers ready
    obtain ⟨running, -⟩ := stepReady_iff.1 ready
    have noFault : t.fault = none := (fault_of_exec_halt (step_of_fetch_ok ready halt ▸ h)).trans running
    rw [serve, serveStep_of_noFault h noFault]

/-! ## Requests that find the engine not ready -/

theorem stop_not_ready (s : State) : s.stop.stepReady = false := by
  simp [State.stepReady, State.stop]

/-- Settles O9: only a ready engine steps, and one that is not ready answers by its latch. -/
theorem stepRefusedWhenNotReady : Obligations.StepRefusedWhenNotReady := by
  intro s unready
  refine ⟨fun t h => ?_, serveStep_of_not_ready unready, fun r latch => ?_, fun latch => ?_⟩
  · obtain ⟨ready, -⟩ := step_eq_next.1 h
    simp [unready] at ready
  · rw [step_of_not_ready unready, notReady, latch]
  · rw [step_of_not_ready unready, notReady, latch]

/-- Settles O11: the stop is taken first, and a stopped engine is not ready for the step. -/
theorem stopRequestPauses : Obligations.StopRequestPauses := fun s => ⟨rfl, serveStep_of_not_ready (stop_not_ready s)⟩

end Sys2Proof.Machine
end

section
/-! SUPPORT. The system instructions (spec/41_system.md): neither reads a cell, so each of them ends in its advance and
no fault comes before it. -/

namespace Sys2Proof.Machine

/-- Settles O14: `Nop` is an advance, and `Halt` is one from the paused state; both are one byte long. -/
theorem nopAndHaltComplete : Obligations.NopAndHaltComplete := by
  intro s
  have nop : exec .nop s = advance .nop s := rfl
  have halt : exec .halt s = advance .halt (s.setPaused true) := rfl
  refine ⟨?_, ?_⟩
  · rw [nop, advance_eq_next]
    rfl
  · rw [halt, advance_eq_next]
    rfl

end Sys2Proof.Machine
end

section
/-! SUPPORT. The stack instructions (spec/42_stack.md): for each of them the operation that is left once it has found
its cells, and from these the stack pictures. -/

namespace Sys2Proof.Machine

variable {s : State} {S : List Word} {a b v imm : Word}

/-! ## `Push`, `Pop`, `Swap` and `Dupe` -/

theorem exec_push_of_room (room : s.config.opStackMax ≠ some s.stack.length) :
    exec (.push imm) s = advance .push (s.setStack (s.stack ++ [imm])) := push_of_room room

theorem exec_pop_concat (popped : s.stack = S ++ [b]) : exec .pop s = advance .pop (s.setStack S) := pop_concat popped

/-- Two pops pass on the top two cells, the upper one first. -/
theorem pop_pop_concat {f : Word → Word → State → Result} (popped : s.stack = S ++ [a, b]) :
    (pop s fun b u => pop u fun a u => f b a u) = f b a (s.setStack S) := by
  have outer : s.stack = (S ++ [a]) ++ [b] := by simp [popped]
  rw [pop_concat outer]
  exact pop_concat rfl

/-- Both pushes of `Swap` follow two pops, so they have room. -/
theorem exec_swap_concat (popped : s.stack = S ++ [a, b]) (fits : withinCapacity s.config.opStackMax s.stack.length) :
    exec .swap s = advance .swap (s.setStack (S ++ [b, a])) := by
  have pair : S ++ [b] ++ [a] = S ++ [b, a] := List.append_assoc S [b] [a]
  rw [← pair]
  calc exec .swap s
    _ = push b (s.setStack S) fun u => push a u (advance .swap) := pop_pop_concat popped
    _ = push a (s.setStack (S ++ [b])) (advance .swap) := push_after_pop fits rfl (by simp [popped])
    _ = advance .swap (s.setStack (S ++ [b] ++ [a])) := push_after_pop fits rfl (by simp [popped])

theorem exec_dupe_concat (top : s.stack = S ++ [v]) : exec .dupe s = push v s (advance .dupe) := readTop_concat top

/-- Settles O15: a push that has room, then the advance past the nine bytes. -/
theorem pushAppendsTheImmediate : Obligations.PushAppendsTheImmediate := fun _ _ room => exec_push_of_room room

/-- Settles O16: each picture is a stack rewrite and an advance by one byte. -/
theorem popSwapDupeStackPictures : Obligations.PopSwapDupeStackPictures := by
  refine ⟨fun _ _ _ popped => exec_pop_concat popped, fun _ _ _ _ popped fits => exec_swap_concat popped fits, ?_⟩
  intro s S v top room
  have copied : s.stack ++ [v] = S ++ [v, v] := by simp [top]
  rw [exec_dupe_concat top, push_of_room room, copied]
  rfl

/-! ## `DupeAt` -/

theorem readAt_of_getElem? {f : Word → Result} {k : Nat} (index : dupeIndex s.stack.length imm = k)
    (cell : s.stack[k]? = some v) : readAt imm s f = f v := by
  simp [readAt, index, cell]

theorem readAt_outside {f : Word → Result} (out : imm.toInt < 1 ∨ (s.stack.length : Int) < imm.toInt) :
    readAt imm s f = raise (.stackIndexOutOfRange imm) s := by
  rw [readAt]
  split
  · rfl
  · have beyond : s.stack.length ≤ (dupeIndex s.stack.length imm).toNat := by
      simp only [dupeIndex] at *
      omega
    rw [List.getElem?_eq_none beyond]

/-- Between 1 and the number of cells, the immediate counts cells from the top. -/
theorem dupeIndex_eq_sub {n : Nat} (lo : 1 ≤ imm.toInt) (hi : imm.toInt ≤ n) :
    dupeIndex n imm = (n - imm.toInt.toNat : Nat) := by
  simp only [dupeIndex]
  omega

theorem exec_dupeAt_inStack (lo : 1 ≤ imm.toInt) (hi : imm.toInt ≤ s.stack.length)
    (cell : s.stack[s.stack.length - imm.toInt.toNat]? = some v) :
    exec (.dupeAt imm) s = push v s (advance .dupeAt) := readAt_of_getElem? (dupeIndex_eq_sub lo hi) cell

/-- Settles O17: the immediate names a cell exactly when it lies between 1 and the number of cells. -/
theorem dupeAtCopiesTheIndexedCell : Obligations.DupeAtCopiesTheIndexedCell := by
  intro s imm
  refine ⟨fun lo hi room => ?_, fun out => readAt_outside out⟩
  have inStack : s.stack.length - imm.toInt.toNat < s.stack.length := by omega
  have cell := List.getElem?_eq_getElem inStack
  refine ⟨_, cell, ?_⟩
  rw [exec_dupeAt_inStack lo hi cell, push_of_room room]
  rfl

/-! ## Two instructions compared -/

theorem eq_append_pair_of_two_le (two : 2 ≤ S.length) : ∃ T a b, S = T ++ [a, b] := by
  obtain ⟨a, b, pair⟩ := List.length_eq_two.1 (show (S.drop (S.length - 2)).length = 2 by simp; omega)
  exact ⟨S.take (S.length - 2), a, b, by rw [← pair, List.take_append_drop]⟩

/-- Settles O20: the second `Swap` finds the two cells in the other order, and the two advances add up. -/
theorem swapTwiceRestoresTheStack : Obligations.SwapTwiceRestoresTheStack := by
  intro s two fits
  obtain ⟨S, a, b, popped⟩ := eq_append_pair_of_two_le two
  refine ⟨_, exec_swap_concat popped fits, ?_⟩
  have fits' : withinCapacity s.config.opStackMax (S ++ [b, a]).length := by simpa [popped] using fits
  have pc : ((s.pc + 1) % 2 ^ s.config.pcBits + 1) % 2 ^ s.config.pcBits = (s.pc + 2) % 2 ^ s.config.pcBits :=
    Nat.mod_add_mod ..
  rw [exec_swap_concat rfl fits', ← popped, ← pc]
  rfl

/-- Settles O21: both copy the top cell with the same push, and differ only in the advance after it. -/
theorem dupeIsDupeAtOne : Obligations.DupeIsDupeAtOne := by
  intro s t nonempty h noFault
  obtain ⟨S, v, top⟩ := (List.eq_nil_or_concat' s.stack).resolve_left nonempty
  have one : (1#64 : Word).toInt = 1 := by decide
  have cell : s.stack[s.stack.length - (1#64 : Word).toInt.toNat]? = some v := by simp [one, top]
  have dupeAt : exec (.dupeAt 1#64) s = push v s (advance .dupeAt) :=
    exec_dupeAt_inStack one.ge (by simp [one, top]) cell
  rw [exec_dupe_concat top] at h
  rcases push_eq_next.1 h with ⟨-, rfl⟩ | ⟨room, h⟩
  · simp at noFault
  · obtain rfl := advance_eq_next.1 h
    rw [dupeAt, push_of_room room]
    rfl

end Sys2Proof.Machine
end

section
/-! SUPPORT. The arithmetic instructions (spec/43_arithmetic.md): what becomes of an exact result, said once for `Add`,
`Mul` and `Sub`, and the quotient of `Div` as the signed quotient of bit vectors. -/

namespace Sys2Proof.Machine

variable {s : State} {S : List Word} {a b r : Word} {n : Int} {m : Mnemonic} {op : Int → Int → Int}

/-! ## Exact results and their patterns -/

theorem fitsI64_iff : fitsI64 n = true ↔ -(2 ^ 63) ≤ n ∧ n < 2 ^ 63 := by simp [fitsI64]

theorem fitsI64_eq_false_iff : fitsI64 n = false ↔ n < -(2 ^ 63) ∨ 2 ^ 63 ≤ n := by
  rw [← Bool.not_eq_true, fitsI64_iff, not_and_or, not_le, not_lt]

theorem divOverflows_iff : divOverflows b a = true ↔ b.toInt = -(2 ^ 63) ∧ a.toInt = -1 := by simp [divOverflows]

theorem toInt_wrap64 (fits : fitsI64 n = true) : (wrap64 n).toInt = n := by
  obtain ⟨lo, hi⟩ := fitsI64_iff.1 fits
  exact BitVec.toInt_ofInt_eq_self (by decide) lo hi

theorem wrap64_add (a b : Word) : wrap64 (a.toInt + b.toInt) = a + b := by
  rw [wrap64, BitVec.ofInt_add, BitVec.ofInt_toInt, BitVec.ofInt_toInt]

theorem wrap64_mul (a b : Word) : wrap64 (a.toInt * b.toInt) = a * b := by
  rw [wrap64, BitVec.ofInt_mul, BitVec.ofInt_toInt, BitVec.ofInt_toInt]

theorem wrap64_sub (a b : Word) : wrap64 (b.toInt - a.toInt) = b - a := by
  rw [wrap64, Int.sub_eq_add_neg, BitVec.ofInt_add, BitVec.ofInt_neg, BitVec.ofInt_toInt, BitVec.ofInt_toInt,
    BitVec.sub_eq_add_neg]

theorem wrap64_tdiv (b a : Word) : wrap64 (tdiv b.toInt a.toInt) = b.sdiv a := by
  rw [← BitVec.toInt_inj, BitVec.toInt_sdiv, wrap64, BitVec.toInt_ofInt, tdiv]

/-! ## `Add`, `Mul` and `Sub` -/

/-- What `Add`, `Mul` and `Sub` share: `op` makes the exact result from the next cell and the top. -/
def execArith (m : Mnemonic) (op : Int → Int → Int) (s : State) : Result :=
  pop s fun b s => pop s fun a s => arith (op a.toInt b.toInt) s fun r => push r s (advance m)

theorem exec_add : exec .add s = execArith .add (fun a b => a + b) s := rfl

theorem exec_mul : exec .mul s = execArith .mul (fun a b => a * b) s := rfl

/-- The top is the minuend (conflict C2). -/
theorem exec_sub : exec .sub s = execArith .sub (fun a b => b - a) s := rfl

/-- The push that ends an arithmetic instruction, in the room that its two pops made. -/
theorem push_result (popped : s.stack = S ++ [a, b]) (fits : withinCapacity s.config.opStackMax s.stack.length) :
    push r (s.setStack S) (advance m) = advance m (s.setStack (S ++ [r])) :=
  push_after_pop fits rfl (by simp [popped])

theorem execArith_completes (popped : s.stack = S ++ [a, b])
    (fits : withinCapacity s.config.opStackMax s.stack.length)
    (allowed : ¬ (s.config.arithOverflow = .fault ∧ fitsI64 (op a.toInt b.toInt) = false)) :
    execArith m op s = advance m (s.setStack (S ++ [wrap64 (op a.toInt b.toInt)])) :=
  calc execArith m op s
    _ = arith (op a.toInt b.toInt) (s.setStack S) fun r => push r (s.setStack S) (advance m) := pop_pop_concat popped
    _ = push (wrap64 (op a.toInt b.toInt)) (s.setStack S) (advance m) := if_neg allowed
    _ = advance m (s.setStack (S ++ [wrap64 (op a.toInt b.toInt)])) := push_result popped fits

theorem execArith_of_wrap (popped : s.stack = S ++ [a, b]) (mode : s.config.arithOverflow = .wrap)
    (fits : withinCapacity s.config.opStackMax s.stack.length) :
    execArith m op s = advance m (s.setStack (S ++ [wrap64 (op a.toInt b.toInt)])) :=
  execArith_completes popped fits (by simp [mode])

/-- Either mode lets an exact result pass that is an `i64`. -/
theorem execArith_inRange (popped : s.stack = S ++ [a, b])
    (fits : withinCapacity s.config.opStackMax s.stack.length)
    (lo : -(2 ^ 63) ≤ op a.toInt b.toInt) (hi : op a.toInt b.toInt < 2 ^ 63) :
    ∃ r : Word, r.toInt = op a.toInt b.toInt ∧ execArith m op s = advance m (s.setStack (S ++ [r])) := by
  have inRange : fitsI64 (op a.toInt b.toInt) = true := fitsI64_iff.2 ⟨lo, hi⟩
  exact ⟨_, toInt_wrap64 inRange, execArith_completes popped fits (by simp [inRange])⟩

theorem execArith_overflows (popped : s.stack = S ++ [a, b]) (mode : s.config.arithOverflow = .fault)
    (out : op a.toInt b.toInt < -(2 ^ 63) ∨ 2 ^ 63 ≤ op a.toInt b.toInt) :
    execArith m op s = raise .arithmeticOverflow (s.setStack S) :=
  calc execArith m op s
    _ = arith (op a.toInt b.toInt) (s.setStack S) fun r => push r (s.setStack S) (advance m) := pop_pop_concat popped
    _ = raise .arithmeticOverflow (s.setStack S) := if_pos ⟨mode, fitsI64_eq_false_iff.2 out⟩

/-- Settles O22: under `wrap` the pattern of the exact result is pushed, and that is the result of 64-bit arithmetic. -/
theorem arithmeticWraps : Obligations.ArithmeticWraps := by
  intro s S a b popped mode fits
  refine ⟨?_, ?_, ?_⟩
  · rw [← wrap64_add]
    exact execArith_of_wrap popped mode fits
  · rw [← wrap64_mul]
    exact execArith_of_wrap popped mode fits
  · rw [← wrap64_sub]
    exact execArith_of_wrap (op := fun a b => b - a) popped mode fits

/-- Settles O23: the exact result passes and its pattern has it as its value. -/
theorem arithmeticInRangeIsExact : Obligations.ArithmeticInRangeIsExact := by
  intro s S a b popped fits
  refine ⟨fun lo hi => ?_, fun lo hi => ?_, fun lo hi => ?_⟩
  · rw [exec_add]
    exact execArith_inRange popped fits lo hi
  · rw [exec_mul]
    exact execArith_inRange popped fits lo hi
  · rw [exec_sub]
    exact execArith_inRange (op := fun a b => b - a) popped fits lo hi

/-- Settles O24: the check of the exact result stands between the pops and the push. -/
theorem arithmeticOverflowFaults : Obligations.ArithmeticOverflowFaults := by
  intro s S a b popped mode
  refine ⟨fun out => ?_, fun out => ?_, fun out => ?_⟩
  · rw [exec_add]
    exact execArith_overflows popped mode out
  · rw [exec_mul]
    exact execArith_overflows popped mode out
  · rw [exec_sub]
    exact execArith_overflows popped mode out

/-! ## `Div` -/

theorem toInt_eq_zero_iff : a.toInt = 0 ↔ a = 0#64 := by
  rw [← BitVec.toInt_zero (w := 64), BitVec.toInt_inj]

theorem divide_of_zero {f : Word → Result} (zero : a.toInt = 0) : divide b a s f = raise .divisionByZero s :=
  if_pos (toInt_eq_zero_iff.1 zero)

theorem divide_of_overflows {f : Word → Result} (nonzero : a.toInt ≠ 0) (mode : s.config.divOverflow = .fault)
    (overflows : divOverflows b a = true) : divide b a s f = raise .divisionOverflow s := by
  rw [divide, if_neg (toInt_eq_zero_iff.not.1 nonzero), if_pos ⟨mode, overflows⟩]

theorem divide_of_allowed {f : Word → Result} (nonzero : a.toInt ≠ 0)
    (allowed : ¬ (s.config.divOverflow = .fault ∧ divOverflows b a = true)) : divide b a s f = f (b.sdiv a) := by
  rw [divide, if_neg (toInt_eq_zero_iff.not.1 nonzero), if_neg allowed, wrap64_tdiv]

/-- The top is the dividend (conflict C3). -/
theorem exec_div_concat (popped : s.stack = S ++ [a, b]) :
    exec .div s = divide b a (s.setStack S) fun r => push r (s.setStack S) (advance .div) := pop_pop_concat popped

theorem exec_div_zero (popped : s.stack = S ++ [a, b]) (zero : a.toInt = 0) :
    exec .div s = raise .divisionByZero (s.setStack S) := (exec_div_concat popped).trans (divide_of_zero zero)

theorem exec_div_overflows (popped : s.stack = S ++ [a, b]) (nonzero : a.toInt ≠ 0)
    (mode : s.config.divOverflow = .fault) (overflows : divOverflows b a = true) :
    exec .div s = raise .divisionOverflow (s.setStack S) :=
  (exec_div_concat popped).trans (divide_of_overflows nonzero mode overflows)

theorem exec_div_completes (popped : s.stack = S ++ [a, b]) (nonzero : a.toInt ≠ 0)
    (allowed : ¬ (s.config.divOverflow = .fault ∧ divOverflows b a = true))
    (fits : withinCapacity s.config.opStackMax s.stack.length) :
    exec .div s = advance .div (s.setStack (S ++ [b.sdiv a])) :=
  calc exec .div s
    _ = divide b a (s.setStack S) fun r => push r (s.setStack S) (advance .div) := exec_div_concat popped
    _ = push (b.sdiv a) (s.setStack S) (advance .div) := divide_of_allowed nonzero allowed
    _ = advance .div (s.setStack (S ++ [b.sdiv a])) := push_result popped fits

/-- Outside the one overflowing pair the signed quotient of the patterns is the exact one. -/
theorem toInt_sdiv_of_not_overflows (exactly : ¬ divOverflows b a = true) :
    (b.sdiv a).toInt = b.toInt.tdiv a.toInt := by
  refine BitVec.toInt_sdiv_of_ne_or_ne b a (not_and_or.1 fun pair => exactly ?_)
  obtain ⟨rfl, rfl⟩ := pair
  decide

/-- The overflowing quotient 2^63 has the dividend's pattern. -/
theorem sdiv_of_overflows (overflows : divOverflows b a = true) : b.sdiv a = b := by
  obtain ⟨hb, ha⟩ := divOverflows_iff.1 overflows
  rw [← BitVec.toInt_inj, BitVec.toInt_sdiv, hb, ha]
  decide

theorem abs_tmod_lt (n : Int) {d : Int} (nonzero : d ≠ 0) : |n.tmod d| < |d| := by
  rw [Int.abs_eq_natAbs, Int.abs_eq_natAbs, Int.natAbs_tmod]
  exact Int.ofNat_lt.2 (Nat.mod_lt _ (Int.natAbs_pos.2 nonzero))

theorem tmod_eq_zero_or_sign_eq (n d : Int) : n.tmod d = 0 ∨ (n.tmod d).sign = n.sign := by
  by_cases divides : d ∣ n
  · exact .inl (Int.tmod_eq_zero_of_dvd divides)
  · exact .inr (by rw [Int.sign_tmod, if_neg divides])

/-- Settles O25: the remainder is the one of the division rounded toward zero. -/
theorem divTruncatesTowardZero : Obligations.DivTruncatesTowardZero := by
  intro s S a b popped nonzero notPair fits
  have exactly : ¬ divOverflows b a = true := divOverflows_iff.not.2 notPair
  refine ⟨b.sdiv a, b.toInt.tmod a.toInt, ?_, abs_tmod_lt _ nonzero, tmod_eq_zero_or_sign_eq _ _, ?_⟩
  · rw [toInt_sdiv_of_not_overflows exactly, Int.tdiv_mul_add_tmod]
  · exact exec_div_completes popped nonzero (fun fault => exactly fault.2) fits

/-- Settles O26: both checks come after the two pops, and past them the wrapped quotient is pushed. -/
theorem divFaultsOnZeroAndOverflow : Obligations.DivFaultsOnZeroAndOverflow := by
  intro s S a b popped
  refine ⟨exec_div_zero popped, fun hb ha mode => ?_, fun hb ha mode fits => ?_⟩
  · exact exec_div_overflows popped (by simp [ha]) mode (divOverflows_iff.2 ⟨hb, ha⟩)
  · have completes := exec_div_completes popped (by simp [ha]) (by simp [mode]) fits
    rw [sdiv_of_overflows (divOverflows_iff.2 ⟨hb, ha⟩)] at completes
    exact completes

end Sys2Proof.Machine
end

section
/-! SUPPORT. The control-transfer instructions (spec/44_control_transfer.md): for each of them the transfer that is left
once it has found its cell or its frame, and the call stack that a completed `Call` leaves. -/

namespace Sys2Proof.Machine

variable {s : State} {S : List Word} {C : List Frame} {dest : Word} {f : Frame}

/-! ## The clamp of `Jump` -/

theorem jumpTarget_of_neg (neg : dest.toInt < 0) : jumpTarget dest = 0 := by
  rw [jumpTarget, max_eq_right neg.le, Int.toNat_zero]

/-- A pattern that is not negative reads the same signed and unsigned. -/
theorem jumpTarget_of_nonneg (nonneg : 0 ≤ dest.toInt) : jumpTarget dest = dest.toNat := by
  have signed : (0#64).sle dest = true := BitVec.sle_iff_toInt_le.2 nonneg
  rw [jumpTarget, max_eq_left nonneg, BitVec.toNat_toInt_of_sle signed]

/-! ## The transfer that is left -/

theorem exec_jump_concat (popped : s.stack = S ++ [dest]) :
    exec .jump s = goto (jumpTarget dest) (s.setStack S) := pop_concat popped

theorem exec_call_concat (popped : s.stack = S ++ [dest]) (room : s.config.callStackMax ≠ some s.callStack.length) :
    exec .call s = goto (callTarget dest) ((s.setStack S).setCallStack (s.callStack ++ [⟨s.pc⟩])) :=
  calc exec .call s
    _ = csPush ⟨s.pc⟩ (s.setStack S) (goto (callTarget dest)) :=
      pop_concat (f := fun dest u => csPush ⟨u.pc⟩ u (goto (callTarget dest))) popped
    _ = goto (callTarget dest) ((s.setStack S).setCallStack (s.callStack ++ [⟨s.pc⟩])) :=
      csPush_of_room (s := s.setStack S) room

theorem exec_ret_concat (newest : s.callStack = C ++ [f]) :
    exec .ret s = goto (f.ret + 1) (s.setCallStack C) := csPop_concat newest

theorem exec_ret_nil (empty : s.callStack = []) : exec .ret s = raise .returnWithEmptyCallStack s := by
  simp [exec, execRet, csPop, empty]

/-- Settles O27: the target is 0 below zero, where `PC_BITS` bits hold it as it is, and the popped pattern elsewhere. -/
theorem jumpLandsAtThePoppedValue : Obligations.JumpLandsAtThePoppedValue := by
  intro s S dest popped
  rw [exec_jump_concat popped]
  split
  case isTrue neg =>
    rw [jumpTarget_of_neg neg, goto, Config.pcValue, Nat.zero_mod]
    rfl
  case isFalse nonneg =>
    rw [jumpTarget_of_nonneg (not_lt.1 nonneg)]
    rfl

/-- Settles O28: the pop, the push that has room, then the transfer. -/
theorem callPushesItsAddress : Obligations.CallPushesItsAddress := fun _ _ _ popped room => exec_call_concat popped room

/-- Settles O29: the newest frame is the last one of the call stack. -/
theorem retResumesAfterTheCall : Obligations.RetResumesAfterTheCall :=
  ⟨fun _ _ _ newest => exec_ret_concat newest, fun _ empty => exec_ret_nil empty⟩

/-! ## A `Call` and its `Ret` -/

/-- A `Call` that raised no fault found both its cell and room for the frame. -/
theorem callStack_of_exec_call (s : State) :
    Post (fun t => t.fault = none → t.callStack = s.callStack ++ [⟨s.pc⟩]) (exec .call s) := by
  simp only [exec, execCall]
  exact post_pop (by simp) fun S dest _ => post_csPush (by simp) (post_goto (by simp))

/-- Settles O30: the frame that the `Call` left newest is the one that the `Ret` removes. -/
theorem callThenRetResumesAfterTheCall : Obligations.CallThenRetResumesAfterTheCall := by
  intro s t u call noFault kept
  have newest : u.callStack = s.callStack ++ [⟨s.pc⟩] := kept.trans (callStack_of_exec_call s t call noFault)
  exact exec_ret_concat newest

end Sys2Proof.Machine
end

section
/-! SUPPORT. The load and store instructions (spec/45_load_store.md): a load outside memory, and a store to a byte of
memory, beside the load in memory and the stores outside memory and in the window. -/

namespace Sys2Proof.Machine

variable {s : State} {S : List Word} {value addr : Word}

theorem exec_loadU8_outside (popped : s.stack = S ++ [addr]) (out : addr.toInt < 0 ∨ (memSize : Int) ≤ addr.toInt) :
    exec .loadU8 s = .next ((s.setStack S).takeFault (.memoryOutOfBounds addr)) := by
  rw [exec, execLoadU8, pop_concat popped, memRead, if_pos out]
  rfl

theorem exec_storeU8_byte {a : Nat} (popped : s.stack = S ++ [value, addr]) (target : storeTarget addr = .byte a) :
    exec .storeU8 s =
      advance .storeU8 ((s.setStack S).setMemory (Sparse.write s.memory a (low8 value))) := by
  rw [exec_storeU8_concat popped, memWrite, target]
  rfl

/-- Settles O31: the load reads one byte of memory whether or not the address is in the window, and a load outside
memory faults after its pop. -/
theorem loadPushesTheByte : Obligations.LoadPushesTheByte := by
  intro s S addr popped
  refine ⟨fun lo hi fits => ?_, fun out => exec_loadU8_outside popped out⟩
  exact ⟨zext64 (Sparse.read s.memory addr.toInt.toNat), toNat_zext64 _, exec_loadU8_inMemory popped lo hi fits⟩

/-- Settles O32: the address is the store's target, and the next memory is the old one with that byte written. -/
theorem storeWritesTheLowByte : Obligations.StoreWritesTheLowByte := by
  intro s S value addr popped wf lo hi noWindow
  have target : storeTarget addr = .byte addr.toInt.toNat := by
    rw [storeTarget_eq_byte_iff]
    simp only [memSize, displayBase, displayLimit]
    omega
  refine ⟨_, exec_storeU8_byte popped target, ?_, fun a ne => Sparse.read_write_ne _ ne⟩
  rw [State.setMemory_memory, Sparse.read_write wf, if_pos rfl, toNat_low8]

end Sys2Proof.Machine
end

section
/-! SUPPORT. The interrupt services (spec/46_interrupt.md): what `Interrupt` runs for a code, the display write that a
service comes to once it has its arguments, and every way `Interrupt` ends. -/

namespace Sys2Proof.Machine

variable {s : State} {S : List Word} {index x y color : Word} {code : Byte} {i : Int}

/-! ## The service of a code -/

theorem exec_interrupt_linear : exec (.interrupt 0x00#8) s = servicePixelLinear s (advance .interrupt) := by
  rw [exec, execInterrupt, if_pos rfl]

theorem exec_interrupt_xy : exec (.interrupt 0x01#8) s = servicePixelXY s (advance .interrupt) := by
  rw [exec, execInterrupt, if_neg (by decide), if_pos rfl]

theorem exec_interrupt_unknown (notLinear : code ≠ 0x00#8) (notXY : code ≠ 0x01#8) :
    exec (.interrupt code) s = raise (.unknownInterrupt code) s := by
  rw [exec, execInterrupt, if_neg notLinear, if_neg notXY]

/-- Settles O40: the two codes that have a service are below 2. -/
theorem unknownInterruptCodeFaults : Obligations.UnknownInterruptCodeFaults := by
  intro s code high
  have notLinear : code ≠ 0x00#8 := by
    rintro rfl
    exact absurd high (by decide)
  have notXY : code ≠ 0x01#8 := by
    rintro rfl
    exact absurd high (by decide)
  exact exec_interrupt_unknown notLinear notXY

/-! ## A service with all its arguments -/

theorem exec_interrupt_linear_concat (popped : s.stack = S ++ [index, color]) :
    exec (.interrupt 0x00#8) s = dispWrite index.toInt (low32 color) (s.setStack S) (advance .interrupt) := by
  have outer : s.stack = (S ++ [index]) ++ [color] := by simp [popped]
  rw [exec_interrupt_linear, servicePixelLinear, popArg_concat outer, popArg_concat rfl]
  rfl

theorem exec_interrupt_xy_concat (popped : s.stack = S ++ [x, y, color]) :
    exec (.interrupt 0x01#8) s =
      dispWrite (pixelIndex s.config.displayWidth x y) (low32 color) (s.setStack S) (advance .interrupt) := by
  have outer : s.stack = (S ++ [x] ++ [y]) ++ [color] := by simp [popped]
  rw [exec_interrupt_xy, servicePixelXY, popArg_concat outer, popArg_concat rfl, popArg_concat rfl]
  rfl

theorem dispWrite_onDisplay {c : Pixel} {f : State → Result} (lo : 0 ≤ i) (hi : i < (s.config.displayCells : Int)) :
    dispWrite i c s f = f (s.setDisplay (Sparse.write s.display i.toNat c)) :=
  if_pos (hasCell_iff.2 ⟨lo, hi⟩)

theorem dispWrite_offDisplay {c : Pixel} {f : State → Result} (out : i < 0 ∨ (s.config.displayCells : Int) ≤ i) :
    dispWrite i c s f = raise (.displayOutOfBounds i) s := by
  refine if_neg ?_
  rw [hasCell_iff]
  omega

theorem toNat_low32 (v : Word) : (low32 v).toNat = v.toNat % 2 ^ 32 := BitVec.toNat_setWidth 32 v

/-- Where an interrupt comes to the write of one cell, that cell takes the colour and no other changes, or the cell is
outside the display and the write faults (D11). -/
theorem exec_interrupt_draws
    (draws : exec (.interrupt code) s = dispWrite i (low32 color) (s.setStack S) (advance .interrupt)) :
    (Sparse.wf s.config.displayCells s.display → 0 ≤ i → i < (s.config.displayCells : Int) →
      ∃ d, exec (.interrupt code) s =
          .next { s with stack := S, display := d, pc := (s.pc + 2) % 2 ^ s.config.pcBits } ∧
        (Sparse.read d i.toNat).toNat = color.toNat % 2 ^ 32 ∧
        ∀ j, j ≠ i.toNat → Sparse.read d j = Sparse.read s.display j) ∧
    ((i < 0 ∨ (s.config.displayCells : Int) ≤ i) →
      exec (.interrupt code) s = .next { s with stack := S, fault := some ⟨.displayOutOfBounds i, s.pc⟩ }) := by
  refine ⟨fun wf lo hi => ?_, fun out => draws.trans (dispWrite_offDisplay out)⟩
  refine ⟨Sparse.write s.display i.toNat (low32 color), draws.trans (dispWrite_onDisplay lo hi), ?_, fun j ne => ?_⟩
  · rw [Sparse.read_write wf, if_pos rfl, toNat_low32]
  · exact Sparse.read_write_ne _ ne

/-- Settles O37: the service with its two arguments is one display write. -/
theorem pixelServiceByIndex : Obligations.PixelServiceByIndex := fun _ _ _ _ popped =>
  exec_interrupt_draws (exec_interrupt_linear_concat popped)

/-- Settles O38: the service with its three arguments is one display write, at the exact cell number. -/
theorem pixelServiceByCoordinates : Obligations.PixelServiceByCoordinates := fun _ _ _ _ _ popped =>
  exec_interrupt_draws (exec_interrupt_xy_concat popped)

/-- Settles O39: with their arguments popped, both services are the write of the same cell. -/
theorem coordinatesAgreeWithIndex : Obligations.CoordinatesAgreeWithIndex := by
  intro s S x y index color number
  rw [exec_interrupt_xy_concat rfl, exec_interrupt_linear_concat rfl, number]
  rfl

/-! ## A service with an argument missing -/

/-- Settles O41: each pop of an argument finds a cell or raises the fault that names it. -/
theorem missingInterruptArgumentFaults : Obligations.MissingInterruptArgumentFaults := by
  intro s
  refine ⟨fun empty code service => ?_, fun c one => ⟨?_, ?_⟩, fun y c two => ?_⟩
  · obtain rfl | rfl : code = 0x00#8 ∨ code = 0x01#8 := by simpa using service
    · rw [exec_interrupt_linear, servicePixelLinear, popArg_nil empty]
      rfl
    · rw [exec_interrupt_xy, servicePixelXY, popArg_nil empty]
      rfl
  · rw [exec_interrupt_linear, servicePixelLinear, popArg_concat (S := []) one, popArg_nil rfl]
    rfl
  · rw [exec_interrupt_xy, servicePixelXY, popArg_concat (S := []) one, popArg_nil rfl]
    rfl
  · rw [exec_interrupt_xy, servicePixelXY, popArg_concat (S := [y]) two, popArg_concat (S := []) rfl, popArg_nil rfl]
    rfl

/-! ## Every way `Interrupt` ends, from any operand stack -/

/-- From `s`, the service of `code` has all its arguments and computes this cell number from them. -/
def ComputesCell (s : State) (code : Byte) (i : Int) : Prop :=
  (code = 0x00#8 ∧ ∃ S index color, s.stack = S ++ [index, color] ∧ index.toInt = i) ∨
    (code = 0x01#8 ∧ ∃ S x y color, s.stack = S ++ [x, y, color] ∧ pixelIndex s.config.displayWidth x y = i)

/-- From `s`, `Interrupt` ends in a fault with top cells gone, or with the one display cell written that its service
computes. -/
inductive InterruptEnds (s : State) (code : Byte) : State → Prop
  | faults {S : List Word} {k : FaultKind} (kept : S <+: s.stack) : InterruptEnds s code ((s.setStack S).takeFault k)
  | draws {S : List Word} {j n : Nat} {c : Pixel} (kept : S <+: s.stack) (computes : ComputesCell s code j) :
      InterruptEnds s code (((s.setStack S).setDisplay (Sparse.write s.display j c)).setPc n)

/-- A pop of an argument from the cells `X` under the arguments already popped. -/
theorem interruptEnds_popArg {name : ArgName} {X args : List Word} {f : Word → State → Result}
    (left : s.stack = X ++ args)
    (h : ∀ S v, s.stack = S ++ v :: args → Post (InterruptEnds s code) (f v (s.setStack S))) :
    Post (InterruptEnds s code) (popArg name (s.setStack X) f) := by
  refine post_popArg (.faults (by simp [left])) fun S v top => h S v ?_
  rw [left, show X = S ++ [v] from top, List.append_assoc, List.singleton_append]

/-- The display write that ends a service, over the cells its arguments stood on. -/
theorem interruptEnds_dispWrite {c : Pixel} (kept : S <+: s.stack) (computes : ComputesCell s code i) :
    Post (InterruptEnds s code) (dispWrite i c (s.setStack S) (advance .interrupt)) := by
  intro t h
  rcases dispWrite_eq_next.1 h with ⟨-, rfl⟩ | ⟨onDisplay, h⟩
  · exact .faults kept
  · obtain rfl := advance_eq_next.1 h
    have nonneg : 0 ≤ i := (hasCell_iff.1 onDisplay).1
    exact .draws kept ((Int.toNat_of_nonneg nonneg).symm ▸ computes)

theorem exec_interrupt_ends (code : Byte) (s : State) : Post (InterruptEnds s code) (exec (.interrupt code) s) := by
  by_cases linear : code = 0x00#8
  · subst linear
    rw [exec_interrupt_linear]
    exact interruptEnds_popArg (List.append_nil _).symm fun _ color left =>
      interruptEnds_popArg left fun S index popped =>
        interruptEnds_dispWrite ⟨_, popped.symm⟩ (.inl ⟨rfl, S, index, color, popped, rfl⟩)
  by_cases xy : code = 0x01#8
  · subst xy
    rw [exec_interrupt_xy]
    exact interruptEnds_popArg (List.append_nil _).symm fun _ color left =>
      interruptEnds_popArg left fun _ y left => interruptEnds_popArg left fun S x popped =>
        interruptEnds_dispWrite ⟨_, popped.symm⟩ (.inr ⟨rfl, S, x, y, color, popped, rfl⟩)
  · rw [exec_interrupt_unknown linear xy]
    exact post_raise (.faults List.prefix_rfl)

/-- Settles O44: of the ways `Interrupt` ends, one writes a display cell, and only the one its service computes. -/
theorem frameOfInterrupt : Obligations.FrameOfInterrupt := by
  intro code s t h
  cases exec_interrupt_ends code s t h with
  | @faults S k kept =>
    exact ⟨fun _ => rfl, fun _ changed => absurd rfl changed, kept, rfl, rfl, rfl, .inr ⟨k, rfl, rfl⟩⟩
  | @draws S j n c kept computes =>
    refine ⟨fun _ => rfl, fun cell changed => ?_, kept, rfl, rfl, rfl, .inl rfl⟩
    obtain rfl : cell = j := by
      by_contra ne
      exact changed (Sparse.read_write_ne _ ne)
    exact computes

end Sys2Proof.Machine
end

section
/-! SUPPORT. The frame of the instructions that store nothing (R240): what a completion keeps, by its kind of effect. -/

namespace Sys2Proof.Machine

variable {s u : State} {i : Instr} {n : Nat}

/-- Only the stores write memory or the display, only `Halt` the paused flag, only `Call` and `Ret` the call stack. -/
theorem Completes.frame (h : Completes s i u n) (notStore : i ≠ .storeU8) (notInterrupt : i.mnemonic ≠ .interrupt) :
    u.memory = s.memory ∧ u.display = s.display ∧ (i ≠ .halt → u.paused = s.paused) ∧
      (i ≠ .call → i ≠ .ret → u.callStack = s.callStack) := by
  cases h with
  | stack | jump => exact ⟨rfl, rfl, fun _ => rfl, fun _ _ => rfl⟩
  | halt => exact ⟨rfl, rfl, fun notHalt => absurd rfl notHalt, fun _ _ => rfl⟩
  | call => exact ⟨rfl, rfl, fun _ => rfl, fun notCall => absurd rfl notCall⟩
  | ret => exact ⟨rfl, rfl, fun _ => rfl, fun _ notRet => absurd rfl notRet⟩
  | store => exact absurd rfl notStore
  | draw drawing =>
    obtain rfl | ⟨code, rfl⟩ := drawing
    · exact absurd rfl notStore
    · exact absurd rfl notInterrupt

/-- `Nop`, `Halt` and `Ret` run no operation on the operand stack, whether they complete or fault. -/
theorem stack_of_exec_nop_halt_ret (s : State) (h : i = .nop ∨ i = .halt ∨ i = .ret) :
    Post (fun t => t.stack = s.stack) (exec i s) := by
  obtain rfl | rfl | rfl := h
  · exact post_advance rfl
  · exact post_advance rfl
  · exact post_csPop rfl fun _ _ _ => post_goto rfl

/-- Settles O42: a completion keeps what its kind of effect does not name, a fault all but the operand stack. -/
theorem frameOfNonStoringInstructions : Obligations.FrameOfNonStoringInstructions := by
  intro i s t notStore notInterrupt h
  have stack (only : i = .nop ∨ i = .halt ∨ i = .ret) : t.stack = s.stack := stack_of_exec_nop_halt_ret s only t h
  cases exec_ends i s t h with
  | completes done =>
    obtain ⟨memory, display, paused, callStack⟩ := done.frame notStore notInterrupt
    exact ⟨fun a => congrArg (Sparse.read · a) memory, fun c => congrArg (Sparse.read · c) display, done.config_eq,
      paused, callStack, stack, .inl done.fault_eq⟩
  | @faults k S =>
    exact ⟨fun _ => rfl, fun _ => rfl, rfl, fun _ => rfl, fun _ _ => rfl, stack, .inr ⟨k, rfl, rfl⟩⟩

end Sys2Proof.Machine
end

section
/-! SUPPORT. The faults that an execution raises (R244, R238): `exec_raisesOnly` bounds them by the instruction's codes
and by what the parameters permit. -/

namespace Sys2Proof.Machine

variable {s t : State} {i : Instr} {k : FaultKind}

/-- R244's table: the codes of the faults that the execution of an instruction can raise. -/
def faultCodes : Instr → List Nat
  | .nop | .halt => []
  | .push _ => [12]
  | .pop | .jump | .swap => [3]
  | .add | .mul | .sub => [3, 14]
  | .div => [3, 6, 7]
  | .dupe => [3, 12]
  | .dupeAt _ => [4, 12]
  | .loadU8 => [3, 5]
  | .storeU8 => [3, 5, 11]
  | .call => [3, 13]
  | .ret => [10]
  | .interrupt _ => [8, 9, 11]

/-- R238: the three kinds that need a parameter other than the default; every other kind needs none. -/
def Permits (c : Config) : FaultKind → Prop
  | .stackOverflow => c.opStackMax ≠ none
  | .callStackOverflow => c.callStackMax ≠ none
  | .arithmeticOverflow => c.arithOverflow = .fault
  | _ => True

/-- A fault that `t` holds has one of the codes of `i` and is permitted by the parameters of `s`. -/
def RaisesOnly (s : State) (i : Instr) (t : State) : Prop :=
  ∀ r, t.fault = some r → r.kind.code ∈ faultCodes i ∧ Permits s.config r.kind

theorem raisesOnly_of_noFault (noFault : t.fault = none) : RaisesOnly s i t := by
  intro r fault
  simp [noFault] at fault

theorem raisesOnly_takeFault (permits : Permits s.config k)
    (code : k.code ∈ faultCodes i := by simp [faultCodes, FaultKind.code]) : RaisesOnly s i (t.takeFault k) := by
  rintro _ ⟨⟩
  exact ⟨code, permits⟩

/-! ## The operations that a chain of micro-operations is made of -/

/-- Two pops: the first or the second of them faults, or both find their cell. -/
theorem post_pop_pop {P : State → Prop} {f : Word → Word → State → Result}
    (faults : ∀ S, P ((s.setStack S).takeFault .stackUnderflow))
    (h : ∀ S a b, s.stack = S ++ [a, b] → Post P (f b a (s.setStack S))) :
    Post P (pop s fun b u => pop u fun a u => f b a u) := by
  refine post_pop (faults s.stack) fun S' b outer => post_pop (faults S') fun S a inner => h S a b ?_
  rw [outer, show S' = S ++ [a] from inner, List.append_assoc, List.singleton_append]

/-- A push that may find the operand stack full. -/
theorem raisesOnly_push {v : Word} {m : Mnemonic} (noFault : s.fault = none)
    (code : 12 ∈ faultCodes i := by simp [faultCodes]) :
    Post (RaisesOnly s i) (push v s (advance m)) :=
  post_push (fun full => raisesOnly_takeFault (by simp [Permits, full]) code)
    (post_advance (raisesOnly_of_noFault noFault))

/-- A push over fewer cells than a stack within its capacity had: there is room, so no fault. -/
theorem raisesOnly_push_of_fewer {v : Word} {m : Mnemonic} {X : List Word} (noFault : s.fault = none)
    (fits : withinCapacity s.config.opStackMax s.stack.length) (fewer : X.length < s.stack.length) :
    Post (RaisesOnly s i) (push v (s.setStack X) (advance m)) :=
  post_push (fun full => absurd full (withinCapacity_ne_some fits fewer))
    (post_advance (raisesOnly_of_noFault noFault))

/-- The display write that ends a drawing instruction. -/
theorem raisesOnly_dispWrite {j : Int} {c : Pixel} {m : Mnemonic} {X : List Word} (noFault : s.fault = none)
    (code : 11 ∈ faultCodes i := by simp [faultCodes]) :
    Post (RaisesOnly s i) (dispWrite j c (s.setStack X) (advance m)) :=
  post_dispWrite (raisesOnly_takeFault trivial code) fun _ => post_advance (raisesOnly_of_noFault noFault)

theorem raisesOnly_popArg {name : ArgName} {f : Word → State → Result} {X : List Word}
    (h : ∀ S v, Post (RaisesOnly s i) (f v (s.setStack S))) (code : 9 ∈ faultCodes i := by simp [faultCodes]) :
    Post (RaisesOnly s i) (popArg name (s.setStack X) f) :=
  post_popArg (raisesOnly_takeFault trivial code) fun S v _ => h S v

/-! ## Instructions and fetches -/

/-- Every fault is one micro-operation's; a push that follows as many pops or more has room, and so raises none. -/
theorem exec_raisesOnly (i : Instr) (noFault : s.fault = none)
    (fits : withinCapacity s.config.opStackMax s.stack.length) : Post (RaisesOnly s i) (exec i s) := by
  have completes {t : State} (h : t.fault = s.fault) : RaisesOnly s i t := raisesOnly_of_noFault (h.trans noFault)
  cases i with
  | nop | halt => exact post_advance (completes rfl)
  | push imm => exact raisesOnly_push noFault
  | pop => exact post_pop (raisesOnly_takeFault trivial) fun _ _ _ => post_advance (completes rfl)
  | add | mul | sub =>
    refine post_pop_pop (fun _ => raisesOnly_takeFault trivial) fun S a b popped =>
      post_arith (fun mode => raisesOnly_takeFault mode) fun r => ?_
    exact raisesOnly_push_of_fewer noFault fits (by simp [popped])
  | div =>
    refine post_pop_pop (fun _ => raisesOnly_takeFault trivial) fun S a b popped =>
      post_divide (raisesOnly_takeFault trivial) (raisesOnly_takeFault trivial) fun r => ?_
    exact raisesOnly_push_of_fewer noFault fits (by simp [popped])
  | jump => exact post_pop (raisesOnly_takeFault trivial) fun _ _ _ => post_goto (completes rfl)
  | loadU8 =>
    simp only [exec, execLoadU8]
    refine post_pop (raisesOnly_takeFault trivial) fun S addr popped =>
      post_memRead (raisesOnly_takeFault trivial) fun b => ?_
    exact raisesOnly_push_of_fewer noFault fits (by simp [popped])
  | storeU8 =>
    refine post_pop_pop (fun _ => raisesOnly_takeFault trivial) fun S value addr _ =>
      post_memWrite (raisesOnly_takeFault trivial) (fun j => raisesOnly_takeFault trivial) (fun d => ?_) fun m => ?_
    · exact post_advance (completes rfl)
    · exact post_advance (completes rfl)
  | swap =>
    refine post_pop_pop (fun _ => raisesOnly_takeFault trivial) fun S a b popped => post_push (fun full => ?_) ?_
    · exact absurd full (withinCapacity_ne_some fits (by simp [popped]))
    · exact raisesOnly_push_of_fewer (X := S ++ [b]) noFault fits (by simp [popped])
  | dupe => exact post_readTop (raisesOnly_takeFault trivial) fun _ _ _ => raisesOnly_push noFault
  | dupeAt imm => exact post_readAt (raisesOnly_takeFault trivial) fun _ => raisesOnly_push noFault
  | interrupt code =>
    simp only [exec, execInterrupt]
    split
    · exact raisesOnly_popArg (X := s.stack) fun _ _ => raisesOnly_popArg fun _ _ => raisesOnly_dispWrite noFault
    · split
      · exact raisesOnly_popArg (X := s.stack) fun _ _ => raisesOnly_popArg fun _ _ =>
          raisesOnly_popArg fun _ _ => raisesOnly_dispWrite noFault
      · exact post_raise (raisesOnly_takeFault trivial)
  | call =>
    simp only [exec, execCall]
    refine post_pop (raisesOnly_takeFault trivial) fun S dest _ => post_csPush (fun full => ?_) ?_
    · exact raisesOnly_takeFault fun unbounded => by simp [unbounded] at full
    · exact post_goto (completes rfl)
  | ret => exact post_csPop (raisesOnly_takeFault trivial) fun _ _ _ => post_goto (completes rfl)

/-- Settles O53: `faultCodes` is the table, read one instruction at a time. -/
theorem eachInstructionRaisesOnlyItsFaults : Obligations.EachInstructionRaisesOnlyItsFaults := by
  intro s t i r ready fits h fault
  obtain ⟨noFault, -⟩ := stepReady_iff.1 ready
  have code : r.kind.code ∈ faultCodes i := (exec_raisesOnly i noFault fits t h r fault).1
  cases i <;> exact code

/-- A fetch raises kinds that every choice of the parameters permits. -/
theorem permits_of_fetch_error (h : fetch s = .error k) (c : Config) : Permits c k := by
  unfold fetch at h
  split at h
  · cases h
  · next e _ =>
    cases h
    cases e <;> trivial

/-- R238: with unbounded stacks and wrapped results the kinds that are left have the codes 1 to 11. -/
theorem code_bounds_of_permits {c : Config} (opStack : c.opStackMax = none) (callStack : c.callStackMax = none)
    (mode : c.arithOverflow = .wrap) (permits : Permits c k) : 1 ≤ k.code ∧ k.code ≤ 11 := by
  cases k with
  | stackOverflow => exact absurd opStack permits
  | callStackOverflow => exact absurd callStack permits
  | arithmeticOverflow => simp [Permits, mode] at permits
  | _ => simp [FaultKind.code]

/-- Settles O54: whether a step faults in its fetch or in its execution, the parameters permit the kind. -/
theorem defaultParametersRaiseKindsOneToEleven : Obligations.DefaultParametersRaiseKindsOneToEleven := by
  intro s t r opStack callStack mode h fault
  refine code_bounds_of_permits opStack callStack mode ?_
  obtain ⟨ready, ⟨i, -, h⟩ | ⟨k, hk, rfl⟩⟩ := step_eq_next.1 h
  · obtain ⟨noFault, -⟩ := stepReady_iff.1 ready
    have fits : withinCapacity s.config.opStackMax s.stack.length := by simp [opStack, withinCapacity]
    exact (exec_raisesOnly i noFault fits t h r fault).2
  · cases fault
    exact permits_of_fetch_error hk s.config

end Sys2Proof.Machine
end

section
/-! SUPPORT. A push on a full stack and a pop from one too shallow (R232 kinds 3, 12 and 13): the fault of the operation,
and the instructions that come to it. -/

namespace Sys2Proof.Machine

variable {s : State} {v : Word}

theorem push_of_full {f : State → Result} (full : s.config.opStackMax = some s.stack.length) :
    push v s f = raise .stackOverflow s := if_pos full

theorem csPush_of_full {f : Frame} {g : State → Result} (full : s.config.callStackMax = some s.callStack.length) :
    csPush f s g = raise .callStackOverflow s := if_pos full

/-- Settles O18: with its cell found, each of these instructions comes to a push that has no room. -/
theorem fullStacksFault : Obligations.FullStacksFault := by
  refine ⟨fun s full => ⟨fun imm => push_of_full full, fun nonempty => ?_, fun imm lo hi => ?_⟩,
    fun s S dest full popped => ?_⟩
  · obtain ⟨S, v, top⟩ := (List.eq_nil_or_concat' s.stack).resolve_left nonempty
    exact (exec_dupe_concat top).trans (push_of_full full)
  · have inStack : s.stack.length - imm.toInt.toNat < s.stack.length := by omega
    exact (exec_dupeAt_inStack lo hi (List.getElem?_eq_getElem inStack)).trans (push_of_full full)
  · calc exec .call s
      _ = csPush ⟨s.pc⟩ (s.setStack S) (goto (callTarget dest)) :=
        pop_concat (f := fun dest u => csPush ⟨u.pc⟩ u (goto (callTarget dest))) popped
      _ = raise .callStackOverflow (s.setStack S) := csPush_of_full (s := s.setStack S) full

theorem readTop_nil {f : Word → Result} (empty : s.stack = []) : readTop s f = raise .stackUnderflow s := by
  simp [readTop, empty]

/-- The first pop takes the only cell, and the second finds none. -/
theorem pop_pop_singleton {f : Word → Word → State → Result} (one : s.stack = [v]) :
    (pop s fun b u => pop u fun a u => f b a u) = raise .stackUnderflow (s.setStack []) :=
  (pop_concat (S := []) one).trans (pop_nil rfl)

/-- Settles O19: each of these instructions begins with a pop, or with the read of the top cell, and those of the second
list with two pops. -/
theorem shallowStackUnderflows : Obligations.ShallowStackUnderflows := by
  refine ⟨fun i listed s empty => ?_, fun i listed s v one => ?_⟩
  · cases i with
    | pop | swap | add | mul | sub | div | jump | loadU8 | storeU8 | call =>
      simp only [exec]
      exact pop_nil empty
    | dupe => exact readTop_nil empty
    | nop | halt | push | dupeAt | interrupt | ret => simp at listed
  · cases i with
    | swap | add | mul | sub | div | storeU8 => exact pop_pop_singleton one
    | nop | halt | push | pop | jump | loadU8 | dupe | dupeAt | interrupt | call | ret => simp at listed

end Sys2Proof.Machine
end

section
/-! SUPPORT. What the host does with a faulted engine (R246), and the two reads that change nothing (R262, R71). -/

namespace Sys2Proof.Machine

variable {s : State} {f : FaultRecord} {a : Nat}

theorem not_ready_of_fault (latched : s.fault = some f) : s.stepReady = false := by
  simp [State.stepReady, latched]

/-- Settles O55: neither a faulted engine nor a stopped one is ready for a step, and a stop sets the flag alone. -/
theorem faultIsFinalUntilConstruction : Obligations.FaultIsFinalUntilConstruction := by
  intro r s f notConstruct latched
  have refused : serve .step s = (.refused, s) := serveStep_of_not_ready (not_ready_of_fault latched)
  have stopped : serve .stopWithStep s = (.refused, s.stop) := serveStep_of_not_ready (stop_not_ready s)
  cases r with
  | construct image w h => exact absurd rfl (notConstruct image w h)
  | step =>
    rw [refused]
    exact ⟨latched, .inl rfl, rfl⟩
  | stop => exact ⟨latched, .inr rfl, refused⟩
  | stopWithStep =>
    rw [stopped]
    exact ⟨latched, .inr rfl, refused⟩

theorem debugByte_of_lt (h : a < memSize) : s.debugByte a = some (Sparse.read s.memory a) := if_pos h

theorem debugByte_of_ge (h : memSize ≤ a) : s.debugByte a = none := if_neg (not_lt.2 h)

theorem snapshot_length (s : State) : s.snapshot.length = s.config.displayCells := by simp [State.snapshot]

theorem snapshot_getElem? {j : Nat} (h : j < s.config.displayCells) :
    s.snapshot[j]? = some (Sparse.read s.display j) := by
  rw [State.snapshot, List.getElem?_map, List.getElem?_range h, Option.map_some]

/-- Settles O57: memory has 65536 addresses, and the display as many cells as its width times its height. -/
theorem debugReadsAndSnapshot : Obligations.DebugReadsAndSnapshot := fun s =>
  ⟨fun _ => debugByte_of_lt, fun _ => debugByte_of_ge, snapshot_length s, fun _ => snapshot_getElem?⟩

end Sys2Proof.Machine
end

section
/-! SUPPORT. Construction (R280, R281): the two cases of `construct`, what the host's request makes of them, and the
image's bytes in memory. -/

namespace Sys2Proof.Machine

variable {s t : State} {c : Config} {image : List Byte} {w h a : Nat}

theorem construct_of_le (fit : image.length ≤ memSize) :
    construct c image = some { State.reset with config := c, memory := writeBytes [] 0 image } := if_pos fit

theorem construct_of_gt (tooLong : memSize < image.length) : construct c image = none := if_neg (not_le.2 tooLong)

theorem serve_construct_of_some
    (built : construct { s.config with displayWidth := w, displayHeight := h } image = some t) :
    serve (.construct image w h) s = (.ok, t) := by
  simp only [serve, built]

theorem serve_construct_of_none
    (refused : construct { s.config with displayWidth := w, displayHeight := h } image = none) :
    serve (.construct image w h) s = (.refused, s) := by
  simp only [serve, refused]

theorem getElem?_of_construct (built : construct c image = some t) (inImage : a < image.length) :
    image[a]? = some (Sparse.read t.memory a) := by
  rw [read_memory_of_construct built, List.getElem?_eq_getElem inImage, Option.getD_some]

theorem read_memory_beyond_image (built : construct c image = some t) (beyond : image.length ≤ a) :
    Sparse.read t.memory a = 0#8 := by
  rw [read_memory_of_construct built, List.getElem?_eq_none beyond, Option.getD_none]

/-- Settles O12: an image that fits replaces the parameters and memory of the reset state, whose other fields are clear;
a longer one gives no engine. -/
theorem constructionLoadsTheImage : Obligations.ConstructionLoadsTheImage := by
  refine fun c image => ⟨construct_of_gt, fun fit => ?_⟩
  have built := construct_of_le (c := c) fit
  exact ⟨_, built, rfl, rfl, rfl, rfl, rfl, rfl, construct_inv built, fun _ => getElem?_of_construct built,
    fun _ => read_memory_beyond_image built, Sparse.read_nil⟩

/-- Settles O58: the request is a construction under the engine's parameters with the display's size replaced, and
passes its engine or its refusal on. -/
theorem constructRequestReplacesTheEngine : Obligations.ConstructRequestReplacesTheEngine := by
  intro s image w h
  obtain ⟨tooLong, fits⟩ :=
    constructionLoadsTheImage { s.config with displayWidth := w, displayHeight := h } image
  refine ⟨fun fit => ?_, fun long => serve_construct_of_none (tooLong long)⟩
  obtain ⟨t, built, fresh⟩ := fits fit
  exact ⟨t, serve_construct_of_some built, fresh⟩

end Sys2Proof.Machine
end
